-- ==== Sys2Proof/Word.lean ====
section
/-! DEFINITION. The bit vectors the spec treats as bits, under the spec's names for them
(00_scope.md R5, R6; 30_encoding.md R70). -/

namespace Sys2Proof

/-- One byte of FB or OB, R40. -/
abbrev Byte := BitVec 8

/-- One host register word, R5 (REG_BITS = 32). -/
abbrev Word := BitVec 32

/-- A stored Padded Sample, format PS16, R71. -/
abbrev Half := BitVec 16

/-- The 10 significant bits of a sample, R5 (SAMPLE_BITS = 10). -/
abbrev Sample := BitVec 10

/-- A Packed Quad, format PQ40, R72. -/
abbrev Quad := BitVec 40

/-- A gather block, formats LG64 and CG64, R74 and R75. -/
abbrev GatherBlock := BitVec 64

end Sys2Proof
end

