-- ==== Sys2Proof/Config.lean ====
section
/-! DEFINITION. What an implementation fixes (00_scope.md R5) and the values the spec leaves free
(93_implementation_defined.md U3, U8, U10). -/

namespace Sys2Proof

/-- The parameters R5 marks OPEN. A machine's parameters never change; State carries them so that
a statement about every state is a statement about every instance (log entry 6). -/
structure Params where
  /-- FB_BYTES, capacity of the frame buffer in bytes. -/
  fbBytes : Nat
  /-- OB_BYTES, capacity of the output buffer in bytes. -/
  obBytes : Nat
  /-- PIPE_DEPTH, quads in flight; R5: no rule depends on it. -/
  pipeDepth : Nat
  /-- REG_BASE, where the platform places REG; R47: no rule depends on it. -/
  regBase : Nat
  /-- FB_BASE, where the platform places FB. -/
  fbBase : Nat
  /-- OB_BASE, where the platform places OB. -/
  obBase : Nat
deriving DecidableEq, Repr

/-- The parameters State.reset carries. DESIGN CHOICE (log entry 6): the largest capacities R5
allows, so that reset serves every frame some instance accepts. -/
def Config.params : Params :=
  { fbBytes := 2 ^ 32, obBytes := 2 ^ 32, pipeDepth := 1,
    regBase := 0, fbBase := 0x40, obBase := 2 ^ 32 + 0x40 }

/-- The small instance of 95_test_vectors.md: 96 bytes of FB, 64 of OB. -/
def Config.smallParams : Params :=
  { fbBytes := 96, obBytes := 64, pipeDepth := 1, regBase := 0, fbBase := 0x40, obBase := 0xA0 }

/-- The byte of FB at an address at power-on: arbitrary, stable (20_memory.md R58, U8). -/
opaque Config.fbPowerOn : Nat → Byte

/-- The byte of OB at an address at power-on: arbitrary, stable (20_memory.md R58, U8). -/
opaque Config.obPowerOn : Nat → Byte

/-- The byte a host read of FB or OB returns while BUSY: draw number to byte, fresh on every read
(42_host_control.md R145, U3). -/
opaque Config.busyRead : Nat → Byte

/-- The byte a reset during a conversion leaves in OB: draw number and address to byte
(70_reset_and_hazards.md R181, U10). -/
opaque Config.resetDraw : Nat → Nat → Byte

end Sys2Proof
end

