-- ==== Sys2Proof/Syntax.lean ====
section
/-! DEFINITION. The instructions (one constructor per row of opcode_table.json), the accesses a
host can make at the ports, and the turns of the two agents (00_scope.md R8). -/

namespace Sys2Proof

/-- The six host commands (30_encoding.md R77) and the four walker micro-operations (R79). No row
of the table has an operand field: operands are registers each operation names. -/
inductive Instr where
  /-- R143 -/
  | nop
  /-- R97 -/
  | packl
  /-- R98 -/
  | packc
  /-- R113 -/
  | fsize
  /-- R114 -/
  | convert
  /-- R144 -/
  | clrst
  /-- R115 -/
  | wclr
  /-- R116 -/
  | wlq
  /-- R117 -/
  | wcq
  /-- R118 -/
  | wfin
deriving DecidableEq, Repr

/-- The two byte spaces the host reaches, 20_memory.md R40. -/
inductive Space where
  | fb
  | ob
deriving DecidableEq, Repr

/-- One access at the block's ports (42_host_control.md R148). The register port carries a word
index 0 to 15 and a 32-bit word, nothing else (R11, U14). -/
inductive HostAccess where
  /-- Register read, R140. -/
  | regRead (n : Fin 16)
  /-- Register write, R141; word index 0 is the command port. -/
  | regWrite (n : Fin 16) (v : Word)
  /-- FB byte read, R145. -/
  | fbRead (a : Nat)
  /-- FB byte write, R145. -/
  | fbWrite (a : Nat) (b : Byte)
  /-- OB byte read, R145. -/
  | obRead (a : Nat)
  /-- OB byte write, R145. -/
  | obWrite (a : Nat) (b : Byte)
  /-- The host asserts `rst`, 70_reset_and_hazards.md R180, R181. -/
  | assertReset
deriving DecidableEq, Repr

/-- Whose step comes next (R8). MODEL's own: the spec leaves the interleaving of the two agents
free, and a list of turns in State says it (log entry 1). -/
inductive Turn where
  | host (a : HostAccess)
  | walker
deriving DecidableEq, Repr

end Sys2Proof
end

