-- ==== Sys2Proof/Machine/State.lean ====
section
/-! DEFINITION. The state of the block, plain data (10_state.md R10 to R30), the reasons a step can
stop, and the state after reset. -/

namespace Sys2Proof.Machine

/-- PHASE, which micro-operation the walker's next step is (R25). The values 5 to 7 are unreachable
and the type leaves them out, as U12 says. -/
inductive Phase where
  | idle
  | clear
  | luma
  | chroma
  | fin
deriving DecidableEq, Repr

/-- The walker position `pc = (PHASE, ROW, COL)`, R24. -/
structure Position where
  phase : Phase
  row : BitVec 16
  col : BitVec 16
deriving DecidableEq, Repr

/-- The fields of STATUS, R16. Bit 3 and bits 31:7 are hard-wired to 0 and have no storage. -/
structure Status where
  busy : Bool
  done : Bool
  trunc : Bool
  eGeom : Bool
  eCap : Bool
  eCmd : Bool
deriving DecidableEq, Repr

/-- The bytes of FB or OB that something has written, as (address, byte) pairs. An address not
listed is one nothing has written: it has no value here, and the port reads it as its power-on
draw (`State.fbByte`, `State.obByte`; log entry 4). -/
abbrev Memory := List Host.Cell

/-- The canonical form: addresses strictly rising. No entry can equal what an unlisted address
reads as, since that is no value at all. -/
abbrev Memory.wf (m : Memory) : Prop := m.Pairwise (fun x y => x.1 < y.1)

/-- What a host read returned. -/
inductive Reply where
  | word (v : Word)
  | byte (b : Byte)
deriving DecidableEq, Repr

/-- The state of the block (R10), its parameters (R5) and the model's own record of the outside
world (`turns`, `replies`, `draws`). -/
structure State where
  /-- R5, fixed for the machine (log entry 6). -/
  params : Params
  /-- WIDTH bits 15:0, R12; bits 31:16 have no storage. -/
  width : BitVec 16
  /-- HEIGHT bits 15:0, R13; bits 31:16 have no storage. -/
  height : BitVec 16
  /-- LUMA_BYTES, R14. -/
  lumaBytes : Word
  /-- CHROMA_BYTES, R14. -/
  chromaBytes : Word
  /-- OUT_BYTES, R14. -/
  outBytes : Word
  /-- STATUS, R16. -/
  status : Status
  /-- QIN0, R21. -/
  qin0 : Word
  /-- QIN1, R21. -/
  qin1 : Word
  /-- QOUT0, R22. -/
  qout0 : Word
  /-- QOUT1 bits 7:0, R22; bits 31:8 have no storage. -/
  qout1 : Byte
  /-- PHASE, ROW, COL, R24. -/
  pc : Position
  /-- OPTR, R24. -/
  optr : Word
  /-- FB, R26. -/
  fb : Memory
  /-- OB, R27. -/
  ob : Memory
  /-- MODEL's own: the agents' coming turns, first one next (log entry 1). -/
  turns : List Turn
  /-- MODEL's own: what the host's reads returned, newest first (log entry 2). -/
  replies : List Reply
  /-- MODEL's own: how many free draws have been made (log entry 3). -/
  draws : Nat
deriving DecidableEq, Repr

/-- The machine stops. Only a walker step can, in a state no run reaches (log entry 8): the spec's
own faults are STATUS bits and the machine goes on (60_exceptions.md R160). -/
inductive Fault where
  /-- Raised by WLQ and WCQ on an FB address at or above FB_BYTES, which the spec says does not
  exist (20_memory.md R52). Safe. -/
  | fbOutOfSpace
  /-- Raised by WCLR, WLQ and WCQ on an OB address at or above OB_BYTES, which the spec says does
  not exist (R52). Safe. -/
  | obOutOfSpace
deriving DecidableEq, Repr

/-- No meaning. -/
inductive Refusal where
  /-- Raised by `exec` for an instruction that has no meaning yet; no arm uses it. Safe. -/
  | notModelled (mnemonic : String)
  /-- Raised by `fetch` on a host FB access the port cannot express (R52, U13: refuse). Safe. -/
  | fbAddressInexpressible
  /-- Raised by `fetch` on a host OB access the port cannot express (R52, U13: refuse). Safe. -/
  | obAddressInexpressible
deriving DecidableEq, Repr

/-- STATUS after reset, R30. -/
def Status.cleared : Status :=
  { busy := false, done := false, trunc := false, eGeom := false, eCap := false, eCmd := false }

/-- The state after the reset that follows power-on (R30, R182), for a machine with parameters
`p`. Nothing has written FB or OB. -/
def State.resetWith (p : Params) : State :=
  { params := p
    width := 0#16, height := 0#16
    lumaBytes := 0#32, chromaBytes := 0#32, outBytes := 0#32
    status := Status.cleared
    qin0 := 0#32, qin1 := 0#32, qout0 := 0#32, qout1 := 0#8
    pc := { phase := .idle, row := 0#16, col := 0#16 }
    optr := 0#32
    fb := [], ob := []
    turns := [], replies := [], draws := 0 }

/-- The machine right after reset, R30; its parameters are log entry 6's. -/
def State.reset : State := State.resetWith Config.params

end Sys2Proof.Machine
end

