-- ==== Sys2Proof/Machine/Flags.lean ====
section
/-! DEFINITION. STATUS: its layout, TRUNC's accumulation, the fault bits and CLRST's clearing
(10_state.md R16 to R20, 40_quad_packer.md R101, 42_host_control.md R144). -/

namespace Sys2Proof.Machine

/-- One STATUS bit at its place. -/
def bitAt (b : Bool) (n : Nat) : Word := (BitVec.ofBool b).zeroExtend 32 <<< n

/-- STATUS as the host reads it, R16; reserved bits read 0. -/
def Status.toWord (f : Status) : Word :=
  bitAt f.busy 0 ||| bitAt f.done 1 ||| bitAt f.trunc 2 ||| bitAt f.eGeom 4 ||| bitAt f.eCap 5
    ||| bitAt f.eCmd 6

/-- `TRUNC <- TRUNC | t`, R101. -/
def Status.accumulateTrunc (f : Status) (t : Bool) : Status := { f with trunc := f.trunc || t }

/-- DONE cleared, the first effect of CONVERT (R18, R114). -/
def Status.clearDone (f : Status) : Status := { f with done := false }

/-- BUSY set on the acceptance of CONVERT, R114. -/
def Status.setBusy (f : Status) : Status := { f with busy := true }

/-- BUSY cleared and DONE set, the flags of WFIN (R118). -/
def Status.finish (f : Status) : Status := { f with busy := false, done := true }

/-- The five sticky bits CLRST clears, R144. -/
def Status.clearSticky (f : Status) : Status :=
  { f with done := false, trunc := false, eGeom := false, eCap := false, eCmd := false }

/-- The three faults of 60_exceptions.md R160. -/
inductive CommandFault where
  | invalidGeometry
  | capacity
  | illegalCommand
deriving DecidableEq, Repr

/-- The cause code of a fault is its STATUS bit number, R160. -/
def CommandFault.causeCode : CommandFault → Nat
  | .invalidGeometry => 4
  | .capacity => 5
  | .illegalCommand => 6

/-- The STATUS bit of a fault set, R167; it stays set if it was (R168). -/
def Status.setFault (f : Status) : CommandFault → Status
  | .invalidGeometry => { f with eGeom := true }
  | .capacity => { f with eCap := true }
  | .illegalCommand => { f with eCmd := true }

/-- Whether the STATUS bit of a fault is set. -/
def Status.hasFault (f : Status) : CommandFault → Bool
  | .invalidGeometry => f.eGeom
  | .capacity => f.eCap
  | .illegalCommand => f.eCmd

end Sys2Proof.Machine
end

