-- ==== Sys2Proof/Machine/Geometry.lean ====
section
/-! DEFINITION. The geometry functions, the size formula and the geometry check
(41_frame_codec.md R110, R111), in exact natural-number arithmetic (R112), and the layout of a
frame in FB (20_memory.md R44, R45). -/

namespace Sys2Proof.Machine

/-- Luma samples in a frame, R110. -/
def npix (w h : Nat) : Nat := w * h

/-- Bytes of the luma section, R110. -/
def lumaSize (w h : Nat) : Nat := w * h / 4 * 5

/-- Bytes of the chroma section, R110. -/
def chromaSize (w h : Nat) : Nat := w * h / 2 / 4 * 5

/-- Bytes of the output, R110. -/
def outSize (w h : Nat) : Nat := lumaSize w h + chromaSize w h

/-- Luma quads, R110. -/
def lumaQuads (w h : Nat) : Nat := npix w h / 4

/-- Chroma quads, R110. -/
def chromaQuads (w h : Nat) : Nat := npix w h / 8

/-- Where the Y plane starts in FB, R44. -/
def yOff : Nat := 0

/-- Where the U plane starts in FB, R44. -/
def uOff (w h : Nat) : Nat := 2 * npix w h

/-- Where the V plane starts in FB, R44. -/
def vOff (w h : Nat) : Nat := 2 * npix w h + npix w h / 2

/-- FB address of the luma sample of flat index `i`, R45. -/
def addrY (i : Nat) : Nat := yOff + 2 * i

/-- FB address of the U sample of flat index `i`, R45. -/
def addrU (w h i : Nat) : Nat := uOff w h + 2 * i

/-- FB address of the V sample of flat index `i`, R45. -/
def addrV (w h i : Nat) : Nat := vOff w h + 2 * i

/-- The verdicts of R111. -/
inductive Verdict where
  | ok
  | invalidGeometry
  | capacity
deriving DecidableEq, Repr

/-- `geom_check`, R111; the order of its two lines is the fault priority of R166. -/
def geomCheck (p : Params) (w h : Nat) : Verdict :=
  if w = 0 ∨ h = 0 ∨ w % 4 ≠ 0 ∨ h % 2 ≠ 0 then .invalidGeometry
  else if 3 * w * h > p.fbBytes ∨ 15 * w * h / 8 > p.obBytes then .capacity
  else .ok

/-- The bus address of a register slot: its byte offset 4n (R11) above REG_BASE (R47). -/
def regBusAddr (p : Params) (n : Fin 16) : Nat := p.regBase + 4 * n.val

/-- The bus address of an FB offset, R47. -/
def fbBusAddr (p : Params) (a : Nat) : Nat := p.fbBase + a

/-- The bus address of an OB offset, R47. -/
def obBusAddr (p : Params) (a : Nat) : Nat := p.obBase + a

end Sys2Proof.Machine
end

