-- ==== Sys2Proof/Machine/Quadpack.lean ====
section
/-! DEFINITION. `quad_packer_pipeline` as a pure function: the stages of 40_quad_packer.md R90 to
R95, and the inverse R99 defines for proofs. -/

namespace Sys2Proof.Machine

/-- Which of the two specializations of R90. -/
inductive Kind where
  | luma
  | chroma
deriving DecidableEq, Repr

/-- Four like values, in the order of a gather block or of a quad. -/
structure Four (α : Type) where
  v0 : α
  v1 : α
  v2 : α
  v3 : α
deriving DecidableEq, Repr

/-- The sample value of a stored Padded Sample, bits 9:0 (R71, R73, R92). -/
def sampleValue (hw : Half) : Sample := hw.extractLsb' 0 10

/-- Whether an ignored bit of a stored Padded Sample, bits 15:10, is set (R71, R92). -/
def hasIgnoredBits (hw : Half) : Bool := hw.extractLsb' 10 6 != 0#6

/-- Stage GATHER, R91: `hw_k = G[16k+15:16k]`. -/
def gather (g : GatherBlock) : Four Half :=
  { v0 := g.extractLsb' 0 16, v1 := g.extractLsb' 16 16,
    v2 := g.extractLsb' 32 16, v3 := g.extractLsb' 48 16 }

/-- Stage MASK, R92: the four 10-bit values. -/
def maskSamples (h : Four Half) : Four Sample :=
  { v0 := sampleValue h.v0, v1 := sampleValue h.v1,
    v2 := sampleValue h.v2, v3 := sampleValue h.v3 }

/-- Stage MASK, R92: the bit `t`, whether anything was cut off. -/
def maskTruncates (h : Four Half) : Bool :=
  hasIgnoredBits h.v0 || hasIgnoredBits h.v1 || hasIgnoredBits h.v2 || hasIgnoredBits h.v3

/-- Stage ORDER, R93: memory order, or U0, V0, U1, V1. -/
def order (k : Kind) (m : Four Sample) : Four Sample :=
  match k with
  | .luma => m
  | .chroma => { v0 := m.v0, v1 := m.v2, v2 := m.v1, v3 := m.v3 }

/-- Stage CONCAT, R94. -/
def pack40 (a b c d : Sample) : Quad :=
  a.zeroExtend 40 ||| (b.zeroExtend 40 <<< 10) ||| (c.zeroExtend 40 <<< 20)
    ||| (d.zeroExtend 40 <<< 30)

/-- The packed value of `quadpack(kind, G)`, R90. -/
def quadpackValue (k : Kind) (g : GatherBlock) : Quad :=
  let m := order k (maskSamples (gather g))
  pack40 m.v0 m.v1 m.v2 m.v3

/-- The truncation bit of `quadpack(kind, G)`, R90. -/
def quadpackTruncates (g : GatherBlock) : Bool := maskTruncates (gather g)

/-- Stage EMIT, R95: byte `n` of a quad, `p_n = P[8n+7:8n]`. -/
def quadByte (q : Quad) (n : Nat) : Byte := q.extractLsb' (8 * n) 8

/-- `unpack40`, R99; the hardware has no such operation. -/
def unpack40 (q : Quad) : Four Sample :=
  { v0 := q.extractLsb' 0 10, v1 := q.extractLsb' 10 10,
    v2 := q.extractLsb' 20 10, v3 := q.extractLsb' 30 10 }

end Sys2Proof.Machine
end

