-- ==== Sys2Proof/Machine/Ops.lean ====
section
/-! DEFINITION. The named operations over memory, registers, faults and reset. -/

namespace Sys2Proof.Machine

/-! ### Memory (20_memory.md, 00_scope.md R7) -/

/-- The byte written at an address, if something has written it. -/
def Memory.lookup : Memory → Nat → Option Byte
  | [], _ => none
  | c :: m, a => if a = c.1 then some c.2 else Memory.lookup m a

/-- `MemWrite(S:a, 1, b)`, R7. -/
def Memory.write : Memory → Nat → Byte → Memory
  | [], a, b => [(a, b)]
  | c :: m, a, b =>
    if a < c.1 then (a, b) :: c :: m
    else if a = c.1 then (a, b) :: m
    else c :: Memory.write m a b

/-- The bytes at 0 to `n - 1` all written, `f a` at `a`. -/
def Memory.fill (m : Memory) (f : Nat → Byte) (n : Nat) : Memory :=
  (List.range n).map (fun a => (a, f a)) ++ m.filter (fun c => n ≤ c.1)

/-- `MemRead(S:a, n)`, R7: bits `[8k+7:8k]` are the byte at `a + k`. -/
def memRead (rd : Nat → Byte) (a : Nat) : (n : Nat) → BitVec (8 * n)
  | 0 => 0#0
  | n + 1 => (rd (a + n) ++ memRead rd a n).cast (by omega)

/-- `MemWrite(S:a, n, v)`, R7: bits `[8k+7:8k]` of `v` go to the byte at `a + k`. -/
def memWrite {w : Nat} (m : Memory) (a : Nat) (v : BitVec w) : Nat → Memory
  | 0 => m
  | n + 1 => (memWrite m a v n).write (a + n) (v.extractLsb' (8 * n) 8)

/-- The byte FB holds at an address: the one last written, or the power-on draw (R50, R58). -/
def State.fbByte (s : State) (a : Nat) : Byte := (s.fb.lookup a).getD (Config.fbPowerOn a)

/-- The byte OB holds at an address: the one last written, or the power-on draw (R50, R58). -/
def State.obByte (s : State) (a : Nat) : Byte := (s.ob.lookup a).getD (Config.obPowerOn a)

/-- The byte a space holds at an address. -/
def State.spaceByte (s : State) : Space → Nat → Byte
  | .fb => s.fbByte
  | .ob => s.obByte

/-- The bytes a space has, R26, R27. -/
def State.capacity (s : State) : Space → Nat
  | .fb => s.params.fbBytes
  | .ob => s.params.obBytes

/-- `MemRead(FB:a, n)` for the walker; none where an address does not exist (R26, log entry 8). -/
def State.readFb (s : State) (a n : Nat) : Option (BitVec (8 * n)) :=
  if a + n ≤ s.params.fbBytes then some (memRead s.fbByte a n) else none

/-- `MemWrite(OB:a, n, v)` for the walker; none where an address does not exist (R27, log
entry 8). -/
def State.writeOb {w : Nat} (s : State) (a : Nat) (v : BitVec w) (n : Nat) : Option State :=
  if a + n ≤ s.params.obBytes then some { s with ob := memWrite s.ob a v n } else none

/-- OB bytes 0 to `n - 1` set to zero, R115; none where an address does not exist. -/
def State.clearOb (s : State) (n : Nat) : Option State :=
  if n ≤ s.params.obBytes then some { s with ob := s.ob.fill (fun _ => 0#8) n } else none

/-! ### Registers (10_state.md R11 to R23) -/

/-- The register a word index names, R11. -/
inductive RegSlot where
  | cmd
  | status
  | width
  | height
  | lumaBytes
  | chromaBytes
  | outBytes
  | qin0
  | qin1
  | qout0
  | qout1
  | reserved
deriving DecidableEq, Repr

/-- The index column of R11; slots 7 and 12 to 15 are reserved. -/
def regSlot (n : Fin 16) : RegSlot :=
  match n.val with
  | 0 => .cmd
  | 1 => .status
  | 2 => .width
  | 3 => .height
  | 4 => .lumaBytes
  | 5 => .chromaBytes
  | 6 => .outBytes
  | 8 => .qin0
  | 9 => .qin1
  | 10 => .qout0
  | 11 => .qout1
  | _ => .reserved

/-- Register read, 42_host_control.md R140. -/
def State.readSlot (s : State) : RegSlot → Word
  | .cmd => 0#32
  | .status => s.status.toWord
  | .width => s.width.zeroExtend 32
  | .height => s.height.zeroExtend 32
  | .lumaBytes => s.lumaBytes
  | .chromaBytes => s.chromaBytes
  | .outBytes => s.outBytes
  | .qin0 => s.qin0
  | .qin1 => s.qin1
  | .qout0 => s.qout0
  | .qout1 => s.qout1.zeroExtend 32
  | .reserved => 0#32

/-- The value a register read of word index `n` returns, R140. -/
def State.readReg (s : State) (n : Fin 16) : Word := s.readSlot (regSlot n)

/-- Register write while idle, R141, but for the command port, whose write `fetch` decodes. -/
def State.writeSlot (s : State) (v : Word) : RegSlot → State
  | .width => { s with width := v.extractLsb' 0 16 }
  | .height => { s with height := v.extractLsb' 0 16 }
  | .qin0 => { s with qin0 := v }
  | .qin1 => { s with qin1 := v }
  | .cmd => s
  | .status => s
  | .lumaBytes => s
  | .chromaBytes => s
  | .outBytes => s
  | .qout0 => s
  | .qout1 => s
  | .reserved => s

/-- The frame width `w = x[WIDTH][15:0]`, R12. -/
def State.w (s : State) : Nat := s.width.toNat

/-- The frame height `h = x[HEIGHT][15:0]`, R13. -/
def State.h (s : State) : Nat := s.height.toNat

/-- The three size registers written together, R14, R113, R114. -/
def State.writeSizes (s : State) : State :=
  { s with
    lumaBytes := BitVec.ofNat 32 (lumaSize s.w s.h)
    chromaBytes := BitVec.ofNat 32 (chromaSize s.w s.h)
    outBytes := BitVec.ofNat 32 (outSize s.w s.h) }

/-- QOUT0 and QOUT1 written with a packed value, R22. -/
def State.writeQout (s : State) (q : Quad) : State :=
  { s with qout0 := q.extractLsb' 0 32, qout1 := q.extractLsb' 32 8 }

/-! ### Faults (60_exceptions.md) -/

/-- Fault entry, R167: the fault's STATUS bit is set, and nothing more. Nothing is saved, no
control is transferred; there is no return operation (R168): CLRST clears the bit. -/
def State.raise (s : State) (f : CommandFault) : State :=
  { s with status := s.status.setFault f }

/-- What a command does on the verdict of `geom_check` (R113, R114): raise the fault, or go on. -/
def State.onVerdict (s : State) (accepted : State) : Verdict → State
  | .invalidGeometry => s.raise .invalidGeometry
  | .capacity => s.raise .capacity
  | .ok => accepted

/-! ### The host's ports (42_host_control.md) -/

/-- A value returned to the host. -/
def State.reply (s : State) (r : Reply) : State := { s with replies := r :: s.replies }

/-- Host byte read of FB, R145: exact while idle, a fresh free byte while BUSY (U3). -/
def State.hostReadFb (s : State) (a : Nat) : State :=
  if s.status.busy then { s.reply (.byte (Config.busyRead s.draws)) with draws := s.draws + 1 }
  else s.reply (.byte (s.fbByte a))

/-- Host byte read of OB, R145: exact while idle, a fresh free byte while BUSY (U3). -/
def State.hostReadOb (s : State) (a : Nat) : State :=
  if s.status.busy then { s.reply (.byte (Config.busyRead s.draws)) with draws := s.draws + 1 }
  else s.reply (.byte (s.obByte a))

/-- Host byte write of FB, R145: dropped while BUSY. -/
def State.hostWriteFb (s : State) (a : Nat) (b : Byte) : State :=
  if s.status.busy then s else { s with fb := s.fb.write a b }

/-- Host byte write of OB, R145: dropped while BUSY. -/
def State.hostWriteOb (s : State) (a : Nat) (b : Byte) : State :=
  if s.status.busy then s else { s with ob := s.ob.write a b }

/-! ### Reset (70_reset_and_hazards.md) -/

/-- OB after `rst`, R181: untouched while idle; during a conversion bytes 0 to `OUT_BYTES - 1`
take one free draw each (U10). The bound by OB_BYTES bites only in states no run reaches (log
entry 5). -/
def State.obAfterReset (s : State) : Memory :=
  if s.status.busy then
    s.ob.fill (Config.resetDraw s.draws) (min s.outBytes.toNat s.params.obBytes)
  else s.ob

/-- Assertion of `rst`, R180: every register and the walker as R30 says, FB untouched. -/
def State.assertReset (s : State) : State :=
  { State.resetWith s.params with
    fb := s.fb
    ob := s.obAfterReset
    turns := s.turns
    replies := s.replies
    draws := s.draws + 1 }

end Sys2Proof.Machine
end

