-- ==== Sys2Proof/Machine/Codec.lean ====
section
/-! DEFINITION. FSIZE and CONVERT (41_frame_codec.md R113, R114). -/

namespace Sys2Proof.Machine

/-- FSIZE, R113. -/
def execFsize (s : State) : Host.Outcome State Fault Refusal :=
  .next (s.onVerdict s.writeSizes (geomCheck s.params s.w s.h))

/-- The walker started at the acceptance of CONVERT, R114. -/
def State.startWalk (s : State) : State :=
  { s with
    optr := 0#32
    pc := { phase := .clear, row := 0#16, col := 0#16 }
    status := s.status.setBusy }

/-- CONVERT's own step, R114: DONE is cleared before the checks (R18). The rest of the conversion
is the walker's steps. -/
def execConvert (s : State) : Host.Outcome State Fault Refusal :=
  let s1 : State := { s with status := s.status.clearDone }
  .next (s1.onVerdict s1.writeSizes.startWalk (geomCheck s.params s.w s.h))

end Sys2Proof.Machine
end

