-- ==== Sys2Proof/Machine/Control.lean ====
section
/-! DEFINITION. NOP and CLRST (42_host_control.md R143, R144). -/

namespace Sys2Proof.Machine

/-- NOP, R143: changes no state at all. -/
def execNop (s : State) : Host.Outcome State Fault Refusal := .next s

/-- CLRST, R144. -/
def execClrst (s : State) : Host.Outcome State Fault Refusal :=
  .next { s with status := s.status.clearSticky }

end Sys2Proof.Machine
end

