-- ==== Sys2Proof/Machine/Operands.lean ====
section
/-! DEFINITION. The operands of the packing operations: the gather blocks of the quad port and of
the walker (30_encoding.md R74, R75; 10_state.md R21; 41_frame_codec.md R116, R117), and the
samples of a frame in FB (20_memory.md R41, R45). -/

namespace Sys2Proof.Machine

/-- `G = x[QIN1] ∥ x[QIN0]`, R21. -/
def State.portBlock (s : State) : GatherBlock := s.qin1 ++ s.qin0

/-- Flat index of the first sample of the walker's next luma quad, R116. -/
def State.lumaIndex (s : State) : Nat := s.pc.row.toNat * s.w + s.pc.col.toNat

/-- Flat index, in the chroma grid, of the first samples of the walker's next chroma quad, R117. -/
def State.chromaIndex (s : State) : Nat := s.pc.row.toNat * (s.w / 2) + s.pc.col.toNat

/-- FB address of the walker's next luma gather, R116. -/
def State.lumaAddr (s : State) : Nat := addrY s.lumaIndex

/-- FB address of the walker's next U chunk, R117. -/
def State.uAddr (s : State) : Nat := addrU s.w s.h s.chromaIndex

/-- FB address of the walker's next V chunk, R117. -/
def State.vAddr (s : State) : Nat := addrV s.w s.h s.chromaIndex

/-- OB address the walker's next quad is stored at, R116, R117. -/
def State.storeAddr (s : State) : Nat := s.optr.toNat

/-- The luma gather block LG64, R74, R116. -/
def State.lumaBlock (s : State) : Option GatherBlock := s.readFb s.lumaAddr 8

/-- The chroma gather block CG64, `G = GV ∥ GU`, R75, R117. -/
def State.chromaBlock (s : State) : Option GatherBlock :=
  match s.readFb s.uAddr 4, s.readFb s.vAddr 4 with
  | some gu, some gv => some (gv ++ gu)
  | _, _ => none

/-- The Padded Sample stored at an FB address, little-endian, R41. -/
def State.storedSample (s : State) (a : Nat) : Half := memRead s.fbByte a 2

/-- `Y[i]`, R45. -/
def State.ySample (s : State) (i : Nat) : Sample := sampleValue (s.storedSample (addrY i))

/-- `U[i]`, R45. -/
def State.uSample (s : State) (i : Nat) : Sample := sampleValue (s.storedSample (addrU s.w s.h i))

/-- `V[i]`, R45. -/
def State.vSample (s : State) (i : Nat) : Sample := sampleValue (s.storedSample (addrV s.w s.h i))

end Sys2Proof.Machine
end

