-- ==== Sys2Proof/Machine/Packer.lean ====
section
/-! DEFINITION. PACKL and PACKC, the packer on the quad port (40_quad_packer.md R97, R98). -/

namespace Sys2Proof.Machine

/-- The pack of the block in QIN into QOUT, with TRUNC accumulated (R97, R98, R101). -/
def packPort (k : Kind) (s : State) : State :=
  let g := s.portBlock
  { s.writeQout (quadpackValue k g) with
    status := s.status.accumulateTrunc (quadpackTruncates g) }

/-- PACKL, R97. -/
def execPackl (s : State) : Host.Outcome State Fault Refusal := .next (packPort .luma s)

/-- PACKC, R98. -/
def execPackc (s : State) : Host.Outcome State Fault Refusal := .next (packPort .chroma s)

end Sys2Proof.Machine
end

