-- ==== Sys2Proof/Machine/Walker.lean ====
section
/-! DEFINITION. The walker's micro-operations WCLR, WLQ, WCQ, WFIN (41_frame_codec.md R115 to
R118). -/

namespace Sys2Proof.Machine

/-- WCLR, R115. -/
def execWclr (s : State) : Host.Outcome State Fault Refusal :=
  match s.clearOb s.outBytes.toNat with
  | none => .fault .obOutOfSpace
  | some s1 =>
    .next { s1 with optr := 0#32, pc := { phase := .luma, row := 0#16, col := 0#16 } }

/-- The walker position after a luma quad, R116. The sums are exact, so none wraps (R24, R112). -/
def State.afterLuma (s : State) : Position :=
  if s.pc.col.toNat + 4 < s.w then { phase := .luma, row := s.pc.row, col := s.pc.col + 4#16 }
  else if s.pc.row.toNat + 1 < s.h then { phase := .luma, row := s.pc.row + 1#16, col := 0#16 }
  else { phase := .chroma, row := 0#16, col := 0#16 }

/-- The walker position after a chroma quad, R117. -/
def State.afterChroma (s : State) : Position :=
  if s.pc.col.toNat + 2 < s.w / 2 then
    { phase := .chroma, row := s.pc.row, col := s.pc.col + 2#16 }
  else if s.pc.row.toNat + 1 < s.h / 2 then
    { phase := .chroma, row := s.pc.row + 1#16, col := 0#16 }
  else { phase := .fin, row := 0#16, col := 0#16 }

/-- The common part of WLQ and WCQ (R116, R117): pack the gathered block, store the quad's five
bytes at OPTR, accumulate TRUNC, advance OPTR and the position. -/
def walkQuad (k : Kind) (g : GatherBlock) (after : Position) (s : State) :
    Host.Outcome State Fault Refusal :=
  match s.writeOb s.storeAddr (quadpackValue k g) 5 with
  | none => .fault .obOutOfSpace
  | some s1 =>
    .next { s1 with
      status := s1.status.accumulateTrunc (quadpackTruncates g)
      optr := s1.optr + 5#32
      pc := after }

/-- WLQ, R116. -/
def execWlq (s : State) : Host.Outcome State Fault Refusal :=
  match s.lumaBlock with
  | none => .fault .fbOutOfSpace
  | some g => walkQuad .luma g s.afterLuma s

/-- WCQ, R117. -/
def execWcq (s : State) : Host.Outcome State Fault Refusal :=
  match s.chromaBlock with
  | none => .fault .fbOutOfSpace
  | some g => walkQuad .chroma g s.afterChroma s

/-- WFIN, R118. Every earlier quad's store is done: each walker step is atomic (R28). -/
def execWfin (s : State) : Host.Outcome State Fault Refusal :=
  .next { s with
    status := s.status.finish
    pc := { phase := .idle, row := 0#16, col := 0#16 } }

end Sys2Proof.Machine
end

