-- ==== Sys2Proof/Machine/Dispatch.lean ====
section
/-! DEFINITION. One arm per instruction. -/

namespace Sys2Proof.Machine

/-- The effect of an instruction: host commands as R142 names them, walker micro-operations as R79
names them. -/
def exec (i : Instr) (s : State) : Host.Outcome State Fault Refusal :=
  match i with
  | .nop => Sys2Proof.Machine.execNop s
  | .packl => Sys2Proof.Machine.execPackl s
  | .packc => Sys2Proof.Machine.execPackc s
  | .fsize => Sys2Proof.Machine.execFsize s
  | .convert => Sys2Proof.Machine.execConvert s
  | .clrst => Sys2Proof.Machine.execClrst s
  | .wclr => Sys2Proof.Machine.execWclr s
  | .wlq => Sys2Proof.Machine.execWlq s
  | .wcq => Sys2Proof.Machine.execWcq s
  | .wfin => Sys2Proof.Machine.execWfin s

end Sys2Proof.Machine
end

