-- ==== Sys2Proof/WellFormed.lean ====
section
/-! DEFINITION. What the spec calls well formed: parameters within R5's bounds, and host accesses
the ports can express (20_memory.md R52, U13). -/

namespace Sys2Proof

/-- R5: FB_BYTES and OB_BYTES are 1 to 2^32, PIPE_DEPTH is 1 or more. -/
abbrev Params.wf (p : Params) : Prop :=
  (1 ≤ p.fbBytes ∧ p.fbBytes ≤ 2 ^ 32) ∧ (1 ≤ p.obBytes ∧ p.obBytes ≤ 2 ^ 32) ∧ 1 ≤ p.pipeDepth

/-- Every instruction is well formed: no row of the table has an operand (R76, R79). -/
abbrev Instr.wf (_ : Instr) : Prop := True

/-- R145: the address of a host byte access is below the space's capacity; the port cannot express
another (R52, U13). Every other access is expressible by its type. -/
abbrev HostAccess.wf (p : Params) : HostAccess → Prop
  | .fbRead a => a < p.fbBytes
  | .fbWrite a _ => a < p.fbBytes
  | .obRead a => a < p.obBytes
  | .obWrite a _ => a < p.obBytes
  | .regRead _ => True
  | .regWrite _ _ => True
  | .assertReset => True

end Sys2Proof
end

