-- ==== Sys2Proof/Decode.lean ====
section
/-! DEFINITION. The control encodings: the command word CMDW (30_encoding.md R76 to R78,
42_host_control.md R142) and the walker phase WALK (R79); the decoder first, then the encoder. -/

namespace Sys2Proof

/-- A word in one of the two control formats of R70. -/
inductive Encoding where
  /-- CMDW: the 32-bit value written to CMD. -/
  | cmdw (c : Word)
  /-- WALK: the 3-bit PHASE. -/
  | walk (p : BitVec 3)
deriving DecidableEq, Repr

/-- Why a word stands for no instruction. -/
inductive DecodeError where
  /-- CMDW whose ZERO field is not 0, R78. -/
  | zeroFieldSet
  /-- CMDW with OPCODE 0x06 to 0xFF, R78. -/
  | opcodeReserved
  /-- PHASE 0: the walker is idle, R79. -/
  | walkerIdle
  /-- PHASE 5 to 7, R79. -/
  | phaseUnused
deriving DecidableEq, Repr

/-- Command decode, R142: the ZERO field first, then the OPCODE. -/
def decodeCommand (c : Word) : Except DecodeError Instr :=
  if c.extractLsb' 8 24 ≠ 0#24 then .error .zeroFieldSet
  else
    match (c.extractLsb' 0 8).toNat with
    | 0 => .ok .nop
    | 1 => .ok .packl
    | 2 => .ok .packc
    | 3 => .ok .fsize
    | 4 => .ok .convert
    | 5 => .ok .clrst
    | _ => .error .opcodeReserved

/-- The micro-operation a PHASE selects, R79. -/
def decodePhase (p : BitVec 3) : Except DecodeError Instr :=
  match p.toNat with
  | 0 => .error .walkerIdle
  | 1 => .ok .wclr
  | 2 => .ok .wlq
  | 3 => .ok .wcq
  | 4 => .ok .wfin
  | _ => .error .phaseUnused

/-- The decoder, total on every word of either format. -/
def decode : Encoding → Except DecodeError Instr
  | .cmdw c => decodeCommand c
  | .walk p => decodePhase p

/-- The `match` column of R77 and the PHASE column of R79. -/
def encode : Instr → Encoding
  | .nop => .cmdw 0x00000000#32
  | .packl => .cmdw 0x00000001#32
  | .packc => .cmdw 0x00000002#32
  | .fsize => .cmdw 0x00000003#32
  | .convert => .cmdw 0x00000004#32
  | .clrst => .cmdw 0x00000005#32
  | .wclr => .walk 1#3
  | .wlq => .walk 2#3
  | .wcq => .walk 3#3
  | .wfin => .walk 4#3

/-- The instruction the decoder reads from a row of opcode_table.json. A CMDW row has 32 bits; a
WALK row has 3 bits, one whole byte. -/
def decodeTableWord (nbits w : Nat) : Option Instr :=
  if nbits ≤ 8 then
    if w < 8 then (decode (.walk (BitVec.ofNat 3 w))).toOption else none
  else if nbits = 32 ∧ w < 2 ^ 32 then (decode (.cmdw (BitVec.ofNat 32 w))).toOption
  else none

end Sys2Proof
end

