-- ==== Sys2Proof/Machine/Fetch.lean ====
section
/-! DEFINITION. What the next step is: which agent's turn it is, the instruction that turn runs, or
the effect of a turn that runs none (00_scope.md R8, 42_host_control.md R140 to R148). -/

namespace Sys2Proof.Machine

/-- The WALK code of a PHASE, R25. -/
def Phase.code : Phase → BitVec 3
  | .idle => 0#3
  | .clear => 1#3
  | .luma => 2#3
  | .chroma => 3#3
  | .fin => 4#3

/-- The PHASE of a WALK code; U12: the model has no other. -/
def Phase.ofCode (c : Nat) : Phase :=
  match c with
  | 1 => .clear
  | 2 => .luma
  | 3 => .chroma
  | 4 => .fin
  | _ => .idle

/-- The next step: an instruction in the state the fetch leaves, or a turn that runs none. -/
inductive Fetched where
  | run (i : Instr) (s : State)
  | done (o : Host.Outcome State Fault Refusal)

/-- The walker's turn, R79: PHASE selects the micro-operation; an idle walker has no step (R25,
R170) and its turn leaves the state as it is (log entry 10). -/
def fetchWalker (s : State) : Fetched :=
  match decode (.walk s.pc.phase.code) with
  | .ok i => .run i s
  | .error _ => .done (.next s)

/-- A host write to CMD while idle, R142: the command it decodes to, or the fault IllegalCommand
(R163, R167). -/
def fetchCommand (c : Word) (s : State) : Fetched :=
  match decode (.cmdw c) with
  | .ok i => .run i s
  | .error _ => .done (.next (s.raise .illegalCommand))

/-- A host register write, R141: no effect at all while BUSY. -/
def fetchRegWrite (n : Fin 16) (v : Word) (s : State) : Fetched :=
  if s.status.busy then .done (.next s)
  else if regSlot n = .cmd then fetchCommand v s
  else .done (.next (s.writeSlot v (regSlot n)))

/-- The host's turn, R148. A byte access at or above the capacity is refused (U13). -/
def fetchHost (a : HostAccess) (s : State) : Fetched :=
  match a with
  | .regRead n => .done (.next (s.reply (.word (s.readReg n))))
  | .regWrite n v => fetchRegWrite n v s
  | .fbRead a =>
    .done (if a < s.params.fbBytes then .next (s.hostReadFb a) else .refused .fbAddressInexpressible)
  | .fbWrite a b =>
    .done (if a < s.params.fbBytes then .next (s.hostWriteFb a b) else .refused .fbAddressInexpressible)
  | .obRead a =>
    .done (if a < s.params.obBytes then .next (s.hostReadOb a) else .refused .obAddressInexpressible)
  | .obWrite a b =>
    .done (if a < s.params.obBytes then .next (s.hostWriteOb a b) else .refused .obAddressInexpressible)
  | .assertReset => .done (.next s.assertReset)

/-- The next step. The turn taken is removed; when no turn is listed the walker moves, so every
enabled walker step is taken in the end (70_reset_and_hazards.md R184, log entry 1). -/
def fetch (s : State) : Fetched :=
  match s.turns with
  | [] => fetchWalker s
  | .walker :: ts => fetchWalker { s with turns := ts }
  | .host a :: ts => fetchHost a { s with turns := ts }

/-- The state whose very next step runs the instruction of a table row (log entry 11). A CMDW word
is a host write of it to CMD, which needs an idle block; a WALK code is the walker's PHASE, with
BUSY as R17 ties it to PHASE. -/
def placeWord (s : State) (nbits w : Nat) : State :=
  if nbits ≤ 8 then
    { s with
      turns := .walker :: s.turns
      pc := { s.pc with phase := Phase.ofCode (w % 8) }
      status := { s.status with busy := decide (Phase.ofCode (w % 8) ≠ .idle) } }
  else
    { s with
      turns := .host (.regWrite 0 (BitVec.ofNat 32 w)) :: s.turns
      pc := { s.pc with phase := .idle }
      status := { s.status with busy := false } }

end Sys2Proof.Machine
end

