-- ==== Sys2Proof/Machine/Step.lean ====
section
/-! DEFINITION. One step of the machine: one turn of one agent (00_scope.md R8). -/

namespace Sys2Proof.Machine

/-- One step: the instruction the fetched turn runs, or that turn's own effect. -/
def step (s : State) : Host.Outcome State Fault Refusal :=
  match fetch s with
  | .run i s1 => exec i s1
  | .done o => o

/-- `s` with a table row's word placed so that the very next step runs it. -/
def State.withFetchWord (s : State) (nbits w : Nat) : State := placeWord s nbits w

end Sys2Proof.Machine
end

