-- ==== Sys2Proof/Machine/HostProgram.lean ====
section
/-! DEFINITION. The notation for host programs as lists of turns (30_encoding.md R81, R82), wide
transfers as byte accesses (20_memory.md R51), and the host's protocol for one frame
(42_host_control.md R146). Notation, not hardware (92_eei_decisions.md D24). -/

namespace Sys2Proof.Machine

/-- `wr NAME, value`, NAME by its word index. -/
def turnWr (n : Fin 16) (v : Word) : Turn := .host (.regWrite n v)

/-- `rd NAME`, NAME by its word index. -/
def turnRd (n : Fin 16) : Turn := .host (.regRead n)

/-- `cmd MNEMONIC`: a write of the command's word to CMD; a walker micro-operation has no command
word and gives no turn. -/
def turnsCmd (i : Instr) : List Turn :=
  match encode i with
  | .cmdw c => [turnWr 0 c]
  | .walk _ => []

/-- `fbr addr`, `obr addr`: one byte read of a space. -/
def turnRead (S : Space) (a : Nat) : Turn :=
  match S with
  | .fb => .host (.fbRead a)
  | .ob => .host (.obRead a)

/-- `fbw addr, byte`, `obw addr, byte`: one byte write of a space. -/
def turnWrite (S : Space) (a : Nat) (b : Byte) : Turn :=
  match S with
  | .fb => .host (.fbWrite a b)
  | .ob => .host (.obWrite a b)

/-- Byte writes of a space at ascending addresses. -/
def turnsLoad (S : Space) : Nat → List Byte → List Turn
  | _, [] => []
  | a, b :: bs => turnWrite S a b :: turnsLoad S (a + 1) bs

/-- Byte reads of a space at `n` ascending addresses. -/
def turnsDump (S : Space) (a : Nat) : Nat → List Turn
  | 0 => []
  | n + 1 => turnRead S a :: turnsDump S (a + 1) n

/-- `fbload addr, b0 b1 ...`. -/
def turnsFbload (a : Nat) (bs : List Byte) : List Turn := turnsLoad .fb a bs

/-- The same notation on the other port. -/
def turnsObload (a : Nat) (bs : List Byte) : List Turn := turnsLoad .ob a bs

/-- `obdump addr, n`. -/
def turnsObdump (a n : Nat) : List Turn := turnsDump .ob a n

/-- `geom w, h`. -/
def turnsGeom (w h : Word) : List Turn := [turnWr 2 w, turnWr 3 h]

/-- `wait` with a bound on its polls, the walker taking a turn before each: R82's loop ends after
finitely many reads, so some bound serves every conversion (log entry 17). -/
def turnsWait (polls : Nat) : List Turn :=
  (List.replicate polls [Turn.walker, turnRd 1]).flatten

/-- `frame w, h`. -/
def turnsFrame (w h : Word) (polls : Nat) : List Turn :=
  turnsGeom w h ++ turnsCmd .convert ++ turnsWait polls

/-! ### Wide transfers, R51 -/

/-- Byte `k` of a value is its bits `[8k+7:8k]`, little-endian. -/
def wideBytes {n : Nat} (v : BitVec (8 * n)) : List Byte :=
  (List.range n).map (fun k => v.extractLsb' (8 * k) 8)

/-- A wide write of `n` bytes at `a`: `n` byte writes at `a`, `a+1`, ... in ascending order. -/
def turnsWideWrite (S : Space) (a : Nat) {n : Nat} (v : BitVec (8 * n)) : List Turn :=
  turnsLoad S a (wideBytes v)

/-- A wide read of `n` bytes at `a`: `n` byte reads at `a`, `a+1`, ... in ascending order. -/
def turnsWideRead (S : Space) (a n : Nat) : List Turn := turnsDump S a n

/-- The value a wide read of `n` bytes returns: its byte replies composed little-endian, the last
byte read (the newest reply) the most significant. None where those replies are not bytes. -/
def wideReadValue : (n : Nat) → List Reply → Option (BitVec (8 * n))
  | 0, _ => some 0#0
  | n + 1, .byte b :: rs => (wideReadValue n rs).map (fun v => (b ++ v).cast (by omega))
  | _ + 1, .word _ :: _ => none
  | _ + 1, [] => none

/-- One frame as R146 has the host do it: geometry, frame bytes, CONVERT, wait, status, size and
the output bytes. -/
def turnsOneFrame (w h : Word) (frame : List Byte) (polls outBytes : Nat) : List Turn :=
  turnsGeom w h ++ turnsFbload 0 frame ++ turnsCmd .convert ++ turnsWait polls
    ++ [turnRd 1, turnRd 6] ++ turnsObdump 0 outBytes

end Sys2Proof.Machine
end

