-- ==== Sys2Proof/Safety.lean ====
section
/-! DEFINITION. The terms claims use: the invariants of the machine, how far a conversion is, what
its output must be, and which part of the state steers it. -/

namespace Sys2Proof.Machine

/-- A step goes on: it answers a next state. -/
def StepGoesOn (s : State) : Prop := ∃ t, step s = .next t

/-- The geometry passes R111's check. -/
abbrev State.Accepted (s : State) : Prop := geomCheck s.params s.w s.h = .ok

/-- The size registers hold R110's sizes of the present geometry. -/
abbrev State.SizesMatch (s : State) : Prop :=
  s.lumaBytes.toNat = lumaSize s.w s.h ∧ s.chromaBytes.toNat = chromaSize s.w s.h ∧
    s.outBytes.toNat = outSize s.w s.h

/-- Where the walker stands in each phase, R120. -/
abbrev State.PositionInv (s : State) : Prop :=
  match s.pc.phase with
  | .idle => s.pc.row = 0#16 ∧ s.pc.col = 0#16
  | .clear =>
    s.Accepted ∧ s.SizesMatch ∧ s.pc.row = 0#16 ∧ s.pc.col = 0#16 ∧ s.optr = 0#32
  | .luma =>
    s.Accepted ∧ s.SizesMatch ∧ s.pc.col.toNat % 4 = 0 ∧ s.pc.row.toNat < s.h ∧
      s.pc.col.toNat < s.w ∧ s.optr.toNat = 5 * (s.lumaIndex / 4)
  | .chroma =>
    s.Accepted ∧ s.SizesMatch ∧ s.pc.col.toNat % 2 = 0 ∧ s.pc.row.toNat < s.h / 2 ∧
      s.pc.col.toNat < s.w / 2 ∧ s.optr.toNat = lumaSize s.w s.h + 5 * (s.chromaIndex / 2)
  | .fin =>
    s.Accepted ∧ s.SizesMatch ∧ s.pc.row = 0#16 ∧ s.pc.col = 0#16 ∧
      s.optr.toNat = outSize s.w s.h

/-- BUSY is 1 exactly when PHASE is not IDLE, R17. -/
abbrev State.BusyMatchesPhase (s : State) : Prop :=
  s.status.busy = true ↔ s.pc.phase ≠ .idle

/-- FB and OB keep the canonical form and list no address their spaces do not have (R26, R27). -/
abbrev State.MemoriesWf (s : State) : Prop :=
  (s.fb.wf ∧ ∀ c ∈ s.fb, c.1 < s.params.fbBytes) ∧
    (s.ob.wf ∧ ∀ c ∈ s.ob, c.1 < s.params.obBytes)

/-- The invariant of the machine. -/
structure State.Inv (s : State) : Prop where
  /-- R5. -/
  params : s.params.wf
  /-- R26, R27. -/
  memories : s.MemoriesWf
  /-- R17. -/
  busy : s.BusyMatchesPhase
  /-- DONE is 0 from an accepted CONVERT to its WFIN, R18. -/
  done : s.status.done = true → s.status.busy = false
  /-- R120. -/
  position : s.PositionInv

/-- Walker steps from here to the end of the conversion, R119, R121. -/
def State.stepsLeft (s : State) : Nat :=
  match s.pc.phase with
  | .idle => 0
  | .clear => 1 + lumaQuads s.w s.h + chromaQuads s.w s.h + 1
  | .luma => (lumaQuads s.w s.h - s.lumaIndex / 4) + chromaQuads s.w s.h + 1
  | .chroma => (chromaQuads s.w s.h - s.chromaIndex / 2) + 1
  | .fin => 1

/-- The Packed Quad in OB at an address, little-endian, R42. -/
def State.obQuad (s : State) (a : Nat) : Quad := memRead s.obByte a 5

/-- What luma quad `i` of the output must be, R122. -/
def State.lumaQuadOf (s : State) (i : Nat) : Quad :=
  pack40 (s.ySample (4 * i)) (s.ySample (4 * i + 1)) (s.ySample (4 * i + 2)) (s.ySample (4 * i + 3))

/-- What chroma quad `j` of the output must be, R122. -/
def State.chromaQuadOf (s : State) (j : Nat) : Quad :=
  pack40 (s.uSample (2 * j)) (s.vSample (2 * j)) (s.uSample (2 * j + 1)) (s.vSample (2 * j + 1))

/-- Luma quads 0 to `n - 1` stand in OB as R122 says. -/
def State.LumaDone (s : State) (n : Nat) : Prop :=
  ∀ i, i < n → s.obQuad (5 * i) = s.lumaQuadOf i

/-- Chroma quads 0 to `n - 1` stand in OB as R122 says. -/
def State.ChromaDone (s : State) (n : Nat) : Prop :=
  ∀ j, j < n → s.obQuad (lumaSize s.w s.h + 5 * j) = s.chromaQuadOf j

/-- The quads the walker has passed stand in OB as R122 says. -/
def State.OutputSoFar (s : State) : Prop :=
  match s.pc.phase with
  | .idle => True
  | .clear => True
  | .luma => s.LumaDone (s.lumaIndex / 4)
  | .chroma => s.LumaDone (lumaQuads s.w s.h) ∧ s.ChromaDone (s.chromaIndex / 2)
  | .fin => s.LumaDone (lumaQuads s.w s.h) ∧ s.ChromaDone (chromaQuads s.w s.h)

/-- Some sample of the frame in FB has a non-zero ignored bit, R122. -/
def State.FrameTruncates (s : State) : Prop :=
  (∃ i, i < npix s.w s.h ∧ hasIgnoredBits (s.storedSample (addrY i)) = true) ∨
    (∃ j, j < npix s.w s.h / 4 ∧
      (hasIgnoredBits (s.storedSample (addrU s.w s.h j)) = true ∨
        hasIgnoredBits (s.storedSample (addrV s.w s.h j)) = true))

/-- Two states that agree on everything but sample content: FB, OB, QIN, QOUT, TRUNC and what the
host has read (R119, R124). -/
structure State.SameControl (s t : State) : Prop where
  params : s.params = t.params
  width : s.width = t.width
  height : s.height = t.height
  lumaBytes : s.lumaBytes = t.lumaBytes
  chromaBytes : s.chromaBytes = t.chromaBytes
  outBytes : s.outBytes = t.outBytes
  busy : s.status.busy = t.status.busy
  done : s.status.done = t.status.done
  eGeom : s.status.eGeom = t.status.eGeom
  eCap : s.status.eCap = t.status.eCap
  eCmd : s.status.eCmd = t.status.eCmd
  pc : s.pc = t.pc
  optr : s.optr = t.optr
  turns : s.turns = t.turns
  draws : s.draws = t.draws

/-- The turn the step takes is the walker's (an empty list of turns is the walker's too). -/
def State.walkerMoves (s : State) : Bool :=
  match s.turns with
  | [] => true
  | .walker :: _ => true
  | .host _ :: _ => false

/-- The turn the step takes is the host's access `a`. -/
def State.hostMoves (s : State) (a : HostAccess) : Prop := ∃ ts, s.turns = .host a :: ts

/-- The state after the turn is taken off the list and before it has any effect. -/
def State.afterTurn (s : State) : State := { s with turns := s.turns.tail }

/-- The step runs command `i`: an idle block's host writes the word of `i` to CMD (R142). -/
def State.commandRuns (s : State) (i : Instr) : Prop :=
  s.status.busy = false ∧ ∃ c, s.hostMoves (.regWrite 0 c) ∧ decode (.cmdw c) = .ok i

/-- The step runs micro-operation `i`: the walker's turn, in the phase that selects it (R79). -/
def State.microOpRuns (s : State) (i : Instr) : Prop :=
  s.walkerMoves = true ∧ decode (.walk s.pc.phase.code) = .ok i

/-- The step runs instruction `i`. -/
def State.runs (s : State) (i : Instr) : Prop := s.commandRuns i ∨ s.microOpRuns i

/-- A conforming geometry, 00_scope.md R9. -/
abbrev Conforming (w h : Nat) : Prop := 0 < w ∧ 0 < h ∧ w % 4 = 0 ∧ h % 2 = 0

/-- The frame and its output fit the memories, R111. -/
abbrev Fits (p : Params) (w h : Nat) : Prop :=
  3 * w * h ≤ p.fbBytes ∧ 15 * w * h / 8 ≤ p.obBytes

/-- Where ORDER puts sample `k` of a gather block in the quad, R93. -/
def quadPosition : Kind → Nat → Nat
  | .luma, k => k
  | .chroma, k => if k = 1 then 2 else if k = 2 then 1 else k

end Sys2Proof.Machine
end

