-- ==== Sys2Proof/Certificates/Slice0/Obligations.lean ====
section
/-! DEFINITION. The statements for the provers. -/

open Sys2Proof Sys2Proof.Machine

/-! ### Encoding -/

/-- 30_encoding.md R77, R79: a word stands for an instruction exactly when it is that instruction's
encoding, with every bit of it (the ZERO field too) part of the match. -/
def Obligations.DecodeAgreesWithEncode : Prop :=
  ∀ (e : Encoding) (i : Instr), decode e = .ok i ↔ e = encode i

/-- 30_encoding.md R77, R79: some words of the opcode table, written out. -/
def Obligations.TableWordsDecode : Prop :=
  decode (.cmdw 0x00000000#32) = .ok .nop ∧ decode (.cmdw 0x00000001#32) = .ok .packl ∧
    decode (.cmdw 0x00000004#32) = .ok .convert ∧ decode (.cmdw 0x00000005#32) = .ok .clrst ∧
    decode (.cmdw 0x00000104#32) = .error .zeroFieldSet ∧
    decode (.cmdw 0x00000006#32) = .error .opcodeReserved ∧
    decode (.walk 0b010#3) = .ok .wlq ∧ decode (.walk 0b100#3) = .ok .wfin ∧
    decode (.walk 0b000#3) = .error .walkerIdle ∧ decode (.walk 0b101#3) = .error .phaseUnused

/-- 42_host_control.md R142, whole: what a write to CMD does, for every 32-bit value. -/
def Obligations.WriteToCmdDecodesOneCommand : Prop :=
  ∀ (s : State) (c : Word), s.hostMoves (.regWrite 0 c) →
    (s.status.busy = true → step s = .next s.afterTurn) ∧
    (s.status.busy = false →
      (c.extractLsb' 8 24 ≠ 0#24 →
        step s = .next { s.afterTurn with status := { s.status with eCmd := true } }) ∧
      (c.extractLsb' 8 24 = 0#24 →
        (c.extractLsb' 0 8 = 0x00#8 → step s = exec .nop s.afterTurn) ∧
        (c.extractLsb' 0 8 = 0x01#8 → step s = exec .packl s.afterTurn) ∧
        (c.extractLsb' 0 8 = 0x02#8 → step s = exec .packc s.afterTurn) ∧
        (c.extractLsb' 0 8 = 0x03#8 → step s = exec .fsize s.afterTurn) ∧
        (c.extractLsb' 0 8 = 0x04#8 → step s = exec .convert s.afterTurn) ∧
        (c.extractLsb' 0 8 = 0x05#8 → step s = exec .clrst s.afterTurn) ∧
        (0x05#8 < c.extractLsb' 0 8 →
          step s = .next { s.afterTurn with status := { s.status with eCmd := true } })))

/-- A step is `exec` of the instruction decoded where the step fetches: the word the host writes to
CMD while idle (R142), or the walker's PHASE on the walker's turn (R79). The turn taken is removed
from the list; an empty list is the walker's turn (MODEL's own, log entry 1); an idle walker's turn
leaves the rest as it is (log entry 10). -/
def Obligations.StepRunsTheFetchedInstruction : Prop :=
  ∀ (s : State) (ts : List Turn),
    (∀ c i, s.turns = .host (.regWrite 0 c) :: ts → s.status.busy = false →
      decode (.cmdw c) = .ok i → step s = exec i { s with turns := ts }) ∧
    (∀ i, s.turns = .walker :: ts → decode (.walk s.pc.phase.code) = .ok i →
      step s = exec i { s with turns := ts }) ∧
    (∀ i, s.turns = [] → decode (.walk s.pc.phase.code) = .ok i → step s = exec i s) ∧
    (s.turns = .walker :: ts → s.pc.phase = .idle → step s = .next { s with turns := ts }) ∧
    (s.turns = [] → s.pc.phase = .idle → step s = .next s)

/-! ### The host's ports -/

/-- 42_host_control.md R140, whole: what a register read returns, bit by bit, at any time, and that
it changes nothing. -/
def Obligations.RegisterReadReturnsItsRegister : Prop :=
  ∀ (s : State) (n : Fin 16), s.hostMoves (.regRead n) →
    ∃ v : Word, step s = .next { s.afterTurn with replies := .word v :: s.replies } ∧
      (n = 0 → v = 0#32) ∧
      (n = 1 → ∀ k, v.getLsbD k =
        if k = 0 then s.status.busy else if k = 1 then s.status.done
        else if k = 2 then s.status.trunc else if k = 4 then s.status.eGeom
        else if k = 5 then s.status.eCap else if k = 6 then s.status.eCmd else false) ∧
      (n = 2 → v.extractLsb' 0 16 = s.width ∧ v.extractLsb' 16 16 = 0#16) ∧
      (n = 3 → v.extractLsb' 0 16 = s.height ∧ v.extractLsb' 16 16 = 0#16) ∧
      (n = 4 → v = s.lumaBytes) ∧ (n = 5 → v = s.chromaBytes) ∧ (n = 6 → v = s.outBytes) ∧
      (n = 8 → v = s.qin0) ∧ (n = 9 → v = s.qin1) ∧ (n = 10 → v = s.qout0) ∧
      (n = 11 → v.extractLsb' 0 8 = s.qout1 ∧ v.extractLsb' 8 24 = 0#24) ∧
      (n = 7 ∨ 12 ≤ n → v = 0#32)

/-- 42_host_control.md R141, whole: what a register write does at each index, idle and busy. -/
def Obligations.RegisterWriteTakesEffectOnlyWhileIdle : Prop :=
  ∀ (s : State) (n : Fin 16) (v : Word), s.hostMoves (.regWrite n v) →
    (s.status.busy = true → step s = .next s.afterTurn) ∧
    (s.status.busy = false →
      (n = 0 →
        (∀ i, decode (.cmdw v) = .ok i → step s = exec i s.afterTurn) ∧
        (∀ e, decode (.cmdw v) = .error e →
          step s = .next { s.afterTurn with status := { s.status with eCmd := true } })) ∧
      (n = 2 → step s = .next { s.afterTurn with width := v.extractLsb' 0 16 }) ∧
      (n = 3 → step s = .next { s.afterTurn with height := v.extractLsb' 0 16 }) ∧
      (n = 8 → step s = .next { s.afterTurn with qin0 := v }) ∧
      (n = 9 → step s = .next { s.afterTurn with qin1 := v }) ∧
      (n = 1 ∨ (4 ≤ n ∧ n ≤ 7) ∨ 10 ≤ n → step s = .next s.afterTurn))

/-- 42_host_control.md R145, whole: host byte writes and reads of FB and OB below the capacity. A
read while BUSY returns some byte; which one is a free draw and nothing here says. -/
def Obligations.HostByteAccessFollowsBusy : Prop :=
  ∀ (s : State) (a : Nat) (b : Byte),
    (a < s.params.fbBytes → s.hostMoves (.fbWrite a b) →
      (s.status.busy = true → step s = .next s.afterTurn) ∧
      (s.status.busy = false → ∃ t, step s = .next t ∧ t = { s.afterTurn with fb := t.fb } ∧
        ∀ x, t.fbByte x = if x = a then b else s.fbByte x)) ∧
    (a < s.params.obBytes → s.hostMoves (.obWrite a b) →
      (s.status.busy = true → step s = .next s.afterTurn) ∧
      (s.status.busy = false → ∃ t, step s = .next t ∧ t = { s.afterTurn with ob := t.ob } ∧
        ∀ x, t.obByte x = if x = a then b else s.obByte x)) ∧
    (a < s.params.fbBytes → s.hostMoves (.fbRead a) →
      (s.status.busy = true → ∃ r d, step s =
        .next { s.afterTurn with replies := .byte r :: s.replies, draws := d }) ∧
      (s.status.busy = false →
        step s = .next { s.afterTurn with replies := .byte (s.fbByte a) :: s.replies })) ∧
    (a < s.params.obBytes → s.hostMoves (.obRead a) →
      (s.status.busy = true → ∃ r d, step s =
        .next { s.afterTurn with replies := .byte r :: s.replies, draws := d }) ∧
      (s.status.busy = false →
        step s = .next { s.afterTurn with replies := .byte (s.obByte a) :: s.replies }))

/-- 10_state.md R31: a host read, of a register or of a byte, changes nothing of the block, idle or
busy; `replies` and `draws` are the model's own record of what was read. -/
def Obligations.HostReadsHaveNoSideEffect : Prop :=
  ∀ (s t : State) (h : HostAccess), s.hostMoves h → step s = .next t →
    ((∃ n, h = .regRead n) ∨ (∃ a, h = .fbRead a) ∨ (∃ a, h = .obRead a)) →
    t = { s.afterTurn with replies := t.replies, draws := t.draws }

/-- 20_memory.md R52, 93_implementation_defined.md U13 (refuse): a host byte access at or above the
capacity is refused by name, busy or not (log entry 15). -/
def Obligations.InexpressibleAddressIsRefused : Prop :=
  ∀ (s : State) (a : Nat) (b : Byte),
    (s.params.fbBytes ≤ a → (s.hostMoves (.fbRead a) ∨ s.hostMoves (.fbWrite a b)) →
      step s = .refused .fbAddressInexpressible) ∧
    (s.params.obBytes ≤ a → (s.hostMoves (.obRead a) ∨ s.hostMoves (.obWrite a b)) →
      step s = .refused .obAddressInexpressible)

/-- 20_memory.md R51: a wide write of `n` bytes at `a` is the `n` byte writes at `a`, `a+1`, ..., and
a wide read the `n` byte reads; taken one after another while idle they write, and read back, the
value little-endian, and nothing else changes. While BUSY the writes change nothing, and the reads
return some value, about which nothing here says anything. -/
def Obligations.WideTransfersAreByteAccesses : Prop :=
  ∀ (s : State) (S : Space) (a n : Nat) (v : BitVec (8 * n)) (ts : List Turn),
    ((turnsWideWrite S a v).length = n ∧ (turnsWideRead S a n).length = n ∧
      ∀ k, k < n →
        (turnsWideWrite S a v)[k]? = some (turnWrite S (a + k) (v.extractLsb' (8 * k) 8)) ∧
        (turnsWideRead S a n)[k]? = some (turnRead S (a + k))) ∧
    (a + n ≤ s.capacity S → s.turns = turnsWideWrite S a v ++ ts →
      (s.status.busy = true → Sys2Proof.core.run n s = .next { s with turns := ts }) ∧
      (s.status.busy = false → ∃ t, Sys2Proof.core.run n s = .next t ∧
        t = (match S with
          | .fb => { s with turns := ts, fb := t.fb }
          | .ob => { s with turns := ts, ob := t.ob }) ∧
        (∀ x, t.spaceByte S x =
          if a ≤ x ∧ x < a + n then v.extractLsb' (8 * (x - a)) 8 else s.spaceByte S x) ∧
        memRead (t.spaceByte S) a n = v)) ∧
    (a + n ≤ s.capacity S → s.turns = turnsWideRead S a n ++ ts →
      ∃ t r, Sys2Proof.core.run n s = .next t ∧ wideReadValue n t.replies = some r ∧
        t = { s with turns := ts, replies := t.replies, draws := t.draws } ∧
        (s.status.busy = false → r = memRead (s.spaceByte S) a n ∧ t.draws = s.draws))

/-- 42_host_control.md R148, 70_reset_and_hazards.md R185: while BUSY no host access but the
assertion of reset changes anything of the block. -/
def Obligations.HostCannotDisturbARunningConversion : Prop :=
  ∀ (s t : State) (h : HostAccess), s.status.busy = true → s.hostMoves h → h ≠ .assertReset →
    step s = .next t → t = { s.afterTurn with replies := t.replies, draws := t.draws }

/-! ### The packer -/

/-- 40_quad_packer.md R94, whole: the fields of a packed value do not overlap and the `|` is a
sum. -/
def Obligations.Pack40PlacesEachSample : Prop :=
  ∀ a b c d : Sample,
    (pack40 a b c d).extractLsb' 0 10 = a ∧ (pack40 a b c d).extractLsb' 10 10 = b ∧
    (pack40 a b c d).extractLsb' 20 10 = c ∧ (pack40 a b c d).extractLsb' 30 10 = d ∧
    (pack40 a b c d).toNat = a.toNat + b.toNat * 2 ^ 10 + c.toNat * 2 ^ 20 + d.toNat * 2 ^ 30

/-- 40_quad_packer.md R99, whole: `pack40` is a bijection with inverse `unpack40`, and `quadpack`
is not injective on stored values. -/
def Obligations.Pack40IsABijection : Prop :=
  (∀ a b c d : Sample, unpack40 (pack40 a b c d) = { v0 := a, v1 := b, v2 := c, v3 := d }) ∧
    (∀ q : Quad, pack40 (unpack40 q).v0 (unpack40 q).v1 (unpack40 q).v2 (unpack40 q).v3 = q) ∧
    (∀ k : Kind, ∃ g g' : GatherBlock, g ≠ g' ∧ quadpackValue k g = quadpackValue k g')

/-- 40_quad_packer.md R96, whole: the five output bytes in terms of the eight input bytes, for a
LUMA block and, on the reordered bytes, for a CHROMA block. -/
def Obligations.QuadBytesFollowTheByteEquations : Prop :=
  ∀ (k : Kind) (g0 g1 g2 g3 g4 g5 g6 g7 : Byte),
    let g : GatherBlock :=
      match k with
      | .luma => g7 ++ g6 ++ g5 ++ g4 ++ g3 ++ g2 ++ g1 ++ g0
      | .chroma => g7 ++ g6 ++ g3 ++ g2 ++ g5 ++ g4 ++ g1 ++ g0
    let p := quadpackValue k g
    quadByte p 0 = g0 ∧
    quadByte p 1 = (g1 &&& 0x03#8) ||| ((g2 &&& 0x3F#8) <<< 2) ∧
    quadByte p 2 = (g2 >>> 6) ||| ((g3 &&& 0x03#8) <<< 2) ||| ((g4 &&& 0x0F#8) <<< 4) ∧
    quadByte p 3 = (g4 >>> 4) ||| ((g5 &&& 0x03#8) <<< 4) ||| ((g6 &&& 0x03#8) <<< 6) ∧
    quadByte p 4 = (g6 >>> 2) ||| ((g7 &&& 0x03#8) <<< 6)

/-- 40_quad_packer.md R92: the packed value ignores bits 15:10 of each stored value, and the
truncation bit is set exactly when one of them is. -/
def Obligations.QuadpackIgnoresAndReportsHighBits : Prop :=
  (∀ (k : Kind) (g g' : GatherBlock),
    (∀ i, i % 16 < 10 → g.getLsbD i = g'.getLsbD i) → quadpackValue k g = quadpackValue k g') ∧
  (∀ g : GatherBlock, quadpackTruncates g = true ↔ ∃ i, 10 ≤ i % 16 ∧ g.getLsbD i = true)

/-- 40_quad_packer.md R100: changing one stored sample changes at most that sample's ten bits of
the packed value, at the place ORDER gives it. -/
def Obligations.SampleChangesOnlyItsOwnField : Prop :=
  ∀ (kind : Kind) (k : Nat) (g g' : GatherBlock), k < 4 →
    (∀ i, i / 16 ≠ k → g.getLsbD i = g'.getLsbD i) →
    ∀ i, i / 10 ≠ quadPosition kind k →
      (quadpackValue kind g).getLsbD i = (quadpackValue kind g').getLsbD i

/-- 10_state.md R21, 30_encoding.md R75: input byte `k` of the quad port, and the four stored
samples PACKL and PACKC gather from QIN. -/
def Obligations.QuadPortLanes : Prop :=
  ∀ (s : State),
    (∀ k, k < 8 → s.portBlock.extractLsb' (8 * k) 8 =
      if k < 4 then s.qin0.extractLsb' (8 * (k % 4)) 8 else s.qin1.extractLsb' (8 * (k % 4)) 8) ∧
    gather s.portBlock =
      { v0 := s.qin0.extractLsb' 0 16, v1 := s.qin0.extractLsb' 16 16,
        v2 := s.qin1.extractLsb' 0 16, v3 := s.qin1.extractLsb' 16 16 }

/-- 40_quad_packer.md R97, R98: PACKL and PACKC complete in every state, write QOUT and TRUNC as
the rules say, and change nothing else. -/
def Obligations.PackCommandsPackQinIntoQout : Prop :=
  ∀ s : State,
    let t : Bool := s.qin0.extractLsb' 10 6 != 0#6 || s.qin0.extractLsb' 26 6 != 0#6 ||
      s.qin1.extractLsb' 10 6 != 0#6 || s.qin1.extractLsb' 26 6 != 0#6
    let a := s.qin0.extractLsb' 0 10
    let b := s.qin0.extractLsb' 16 10
    let c := s.qin1.extractLsb' 0 10
    let d := s.qin1.extractLsb' 16 10
    exec .packl s = .next { s with
      qout0 := (pack40 a b c d).extractLsb' 0 32
      qout1 := (pack40 a b c d).extractLsb' 32 8
      status := { s.status with trunc := s.status.trunc || t } } ∧
    exec .packc s = .next { s with
      qout0 := (pack40 a c b d).extractLsb' 0 32
      qout1 := (pack40 a c b d).extractLsb' 32 8
      status := { s.status with trunc := s.status.trunc || t } }

/-- 10_state.md R22: after PACKL or PACKC the host reads the five bytes of the quad in QOUT0 and
QOUT1, and 0 in bits 31:8 of QOUT1. -/
def Obligations.QoutHoldsTheFiveBytes : Prop :=
  ∀ (s t : State) (k : Kind),
    exec (match k with | .luma => .packl | .chroma => .packc) s = .next t →
    (∀ n, n < 4 → (t.readReg 10).extractLsb' (8 * n) 8 =
      quadByte (quadpackValue k s.portBlock) n) ∧
    (t.readReg 11).extractLsb' 0 8 = quadByte (quadpackValue k s.portBlock) 4 ∧
    (t.readReg 11).extractLsb' 8 24 = 0#24

/-! ### Geometry, FSIZE, CONVERT and the faults -/

/-- 41_frame_codec.md R110, R112: for a conforming geometry that fits, the divisions are exact and
every size and every FB and OB address fits 32 bits. -/
def Obligations.AcceptedSizesAreExact : Prop :=
  ∀ (p : Params) (w h : Nat), p.wf → Conforming w h → Fits p w h →
    8 * outSize w h = 15 * (w * h) ∧ 8 * outSize w h = 5 * (3 * (w * h)) ∧
    lumaSize w h = 5 * lumaQuads w h ∧ chromaSize w h = 5 * chromaQuads w h ∧
    4 * lumaQuads w h = npix w h ∧ 8 * chromaQuads w h = npix w h ∧
    chromaQuads w h = h / 2 * (w / 2 / 2) ∧
    vOff w h + npix w h / 2 = 3 * w * h ∧ 3 * w * h ≤ p.fbBytes ∧ outSize w h ≤ p.obBytes ∧
    outSize w h < 2 ^ 32

/-- 41_frame_codec.md R113, R114: FSIZE and CONVERT on an accepted geometry write the three exact
sizes; CONVERT also clears DONE, sets BUSY and starts the walker; nothing else changes. -/
def Obligations.AcceptedGeometryWritesTheSizes : Prop :=
  ∀ s : State, s.params.wf → Conforming s.w s.h → Fits s.params s.w s.h →
    ∃ l c o : Word, l.toNat = s.w * s.h / 4 * 5 ∧ c.toNat = s.w * s.h / 2 / 4 * 5 ∧
      o.toNat = s.w * s.h / 4 * 5 + s.w * s.h / 2 / 4 * 5 ∧
      exec .fsize s = .next { s with lumaBytes := l, chromaBytes := c, outBytes := o } ∧
      exec .convert s = .next { s with
        lumaBytes := l, chromaBytes := c, outBytes := o
        optr := 0#32
        pc := { phase := .clear, row := 0#16, col := 0#16 }
        status := { s.status with done := false, busy := true } }

/-- 60_exceptions.md R161, R162, R163, R167: each fault sets its own STATUS bit and changes nothing
else, but that CONVERT has already cleared DONE. -/
def Obligations.FaultSetsOnlyItsBit : Prop :=
  (∀ s : State, ¬Conforming s.w s.h →
    exec .fsize s = .next { s with status := { s.status with eGeom := true } } ∧
    exec .convert s =
      .next { s with status := { s.status with done := false, eGeom := true } }) ∧
  (∀ s : State, Conforming s.w s.h → ¬Fits s.params s.w s.h →
    exec .fsize s = .next { s with status := { s.status with eCap := true } } ∧
    exec .convert s =
      .next { s with status := { s.status with done := false, eCap := true } }) ∧
  (∀ (s : State) (c : Word), s.status.busy = false → s.hostMoves (.regWrite 0 c) →
    (c.extractLsb' 8 24 ≠ 0#24 ∨ 0x06#8 ≤ c.extractLsb' 0 8) →
    step s = .next { s.afterTurn with status := { s.status with eCmd := true } })

/-- 42_host_control.md R143, whole: NOP changes no state at all; its word is 0; writing 0 to CMD
does the same busy or idle. -/
def Obligations.NopChangesNothing : Prop :=
  (∀ s : State, exec .nop s = .next s) ∧ decode (.cmdw 0x00000000#32) = .ok .nop ∧
    (∀ s : State, s.hostMoves (.regWrite 0 0#32) → step s = .next s.afterTurn)

/-- 42_host_control.md R144, whole: CLRST clears the five sticky bits together and nothing else;
its word is 5; run from CMD it leaves STATUS reading 0. -/
def Obligations.ClrstClearsTheStickyBits : Prop :=
  (∀ s : State, exec .clrst s = .next { s with
    status := { busy := s.status.busy, done := false, trunc := false,
                eGeom := false, eCap := false, eCmd := false } }) ∧
  decode (.cmdw 0x00000005#32) = .ok .clrst ∧
  (∀ s : State, s.status.busy = false → s.hostMoves (.regWrite 0 5#32) →
    ∃ t, step s = .next t ∧ t.readReg 1 = 0#32)

/-! ### The walker -/

/-- 41_frame_codec.md R115: WCLR zeroes OB bytes 0 to OUT_BYTES-1 and no other byte, sets OPTR to 0
and goes to (LUMA, 0, 0); nothing else changes. -/
def Obligations.WclrZeroesTheOutputArea : Prop :=
  ∀ s : State, s.outBytes.toNat ≤ s.params.obBytes →
    ∃ t, exec .wclr s = .next t ∧
      (∀ a, t.obByte a = if a < s.outBytes.toNat then 0#8 else s.obByte a) ∧
      t = { s with
        ob := t.ob
        optr := 0#32
        pc := { phase := .luma, row := 0#16, col := 0#16 } }

/-- 41_frame_codec.md R116: WLQ packs the four luma samples at its position into the five bytes at
OPTR, accumulates TRUNC, advances OPTR by 5 and moves in raster order; nothing else changes. -/
def Obligations.WlqPacksOneLumaQuad : Prop :=
  ∀ s : State,
    let i := s.pc.row.toNat * s.w + s.pc.col.toNat
    2 * i + 8 ≤ s.params.fbBytes → s.optr.toNat + 5 ≤ s.params.obBytes →
    ∃ t, exec .wlq s = .next t ∧
      (∀ a, t.obByte a =
        if s.storeAddr ≤ a ∧ a < s.storeAddr + 5 then
          quadByte (pack40 (s.ySample i) (s.ySample (i + 1)) (s.ySample (i + 2))
            (s.ySample (i + 3))) (a - s.storeAddr)
        else s.obByte a) ∧
      t.status = { s.status with
        trunc := s.status.trunc || (hasIgnoredBits (s.storedSample (addrY i)) ||
          hasIgnoredBits (s.storedSample (addrY (i + 1))) ||
          hasIgnoredBits (s.storedSample (addrY (i + 2))) ||
          hasIgnoredBits (s.storedSample (addrY (i + 3)))) } ∧
      t.optr = s.optr + 5#32 ∧
      (s.pc.col.toNat + 4 < s.w →
        t.pc.phase = .luma ∧ t.pc.row = s.pc.row ∧ t.pc.col.toNat = s.pc.col.toNat + 4) ∧
      (s.w ≤ s.pc.col.toNat + 4 → s.pc.row.toNat + 1 < s.h →
        t.pc.phase = .luma ∧ t.pc.row.toNat = s.pc.row.toNat + 1 ∧ t.pc.col = 0#16) ∧
      (s.w ≤ s.pc.col.toNat + 4 → s.h ≤ s.pc.row.toNat + 1 →
        t.pc = { phase := .chroma, row := 0#16, col := 0#16 }) ∧
      t = { s with ob := t.ob, status := t.status, optr := t.optr, pc := t.pc }

/-- 41_frame_codec.md R117: WCQ packs U0, V0, U1, V1 at its position into the five bytes at OPTR,
accumulates TRUNC, advances OPTR by 5 and moves in raster order over the chroma grid; nothing else
changes. -/
def Obligations.WcqPacksOneChromaQuad : Prop :=
  ∀ s : State,
    let j := s.pc.row.toNat * (s.w / 2) + s.pc.col.toNat
    addrU s.w s.h j + 4 ≤ s.params.fbBytes → addrV s.w s.h j + 4 ≤ s.params.fbBytes →
    s.optr.toNat + 5 ≤ s.params.obBytes →
    ∃ t, exec .wcq s = .next t ∧
      (∀ a, t.obByte a =
        if s.storeAddr ≤ a ∧ a < s.storeAddr + 5 then
          quadByte (pack40 (s.uSample j) (s.vSample j) (s.uSample (j + 1)) (s.vSample (j + 1)))
            (a - s.storeAddr)
        else s.obByte a) ∧
      t.status = { s.status with
        trunc := s.status.trunc || (hasIgnoredBits (s.storedSample (addrU s.w s.h j)) ||
          hasIgnoredBits (s.storedSample (addrU s.w s.h (j + 1))) ||
          hasIgnoredBits (s.storedSample (addrV s.w s.h j)) ||
          hasIgnoredBits (s.storedSample (addrV s.w s.h (j + 1)))) } ∧
      t.optr = s.optr + 5#32 ∧
      (s.pc.col.toNat + 2 < s.w / 2 →
        t.pc.phase = .chroma ∧ t.pc.row = s.pc.row ∧ t.pc.col.toNat = s.pc.col.toNat + 2) ∧
      (s.w / 2 ≤ s.pc.col.toNat + 2 → s.pc.row.toNat + 1 < s.h / 2 →
        t.pc.phase = .chroma ∧ t.pc.row.toNat = s.pc.row.toNat + 1 ∧ t.pc.col = 0#16) ∧
      (s.w / 2 ≤ s.pc.col.toNat + 2 → s.h / 2 ≤ s.pc.row.toNat + 1 →
        t.pc = { phase := .fin, row := 0#16, col := 0#16 }) ∧
      t = { s with ob := t.ob, status := t.status, optr := t.optr, pc := t.pc }

/-- 41_frame_codec.md R118: WFIN clears BUSY, sets DONE and goes to (IDLE, 0, 0); OPTR, TRUNC, the
fault bits and everything else stay. -/
def Obligations.WfinEndsTheConversion : Prop :=
  ∀ s : State, exec .wfin s = .next { s with
    status := { s.status with busy := false, done := true }
    pc := { phase := .idle, row := 0#16, col := 0#16 } }

/-- The model's own stop (log entry 8): a walker access at an address the spec says does not exist
(20_memory.md R26, R27, R52) faults by name. No state that meets the invariant does it. -/
def Obligations.WalkerAccessOutsideItsSpaceFaults : Prop :=
  ∀ s : State,
    (s.params.obBytes < s.outBytes.toNat → exec .wclr s = .fault .obOutOfSpace) ∧
    (s.params.fbBytes < s.lumaAddr + 8 → exec .wlq s = .fault .fbOutOfSpace) ∧
    (s.lumaAddr + 8 ≤ s.params.fbBytes → s.params.obBytes < s.storeAddr + 5 →
      exec .wlq s = .fault .obOutOfSpace) ∧
    (s.params.fbBytes < s.uAddr + 4 ∨ s.params.fbBytes < s.vAddr + 4 →
      exec .wcq s = .fault .fbOutOfSpace) ∧
    (s.uAddr + 4 ≤ s.params.fbBytes → s.vAddr + 4 ≤ s.params.fbBytes →
      s.params.obBytes < s.storeAddr + 5 → exec .wcq s = .fault .obOutOfSpace)

/-! ### Memory -/

/-- 20_memory.md R41, R42, R43, 00_scope.md R7: both formats are little-endian: a stored sample is
its two bytes, lower address lower; a quad's five bytes read back as the quad. -/
def Obligations.StorageIsLittleEndian : Prop :=
  (∀ (s : State) (a : Nat), s.storedSample a = s.fbByte (a + 1) ++ s.fbByte a ∧
    sampleValue (s.storedSample a) = (s.fbByte (a + 1)).extractLsb' 0 2 ++ s.fbByte a) ∧
  (∀ (s t : State) (a : Nat) (q : Quad), s.writeOb a q 5 = some t →
    t.obQuad a = q ∧ (∀ n, n < 5 → t.obByte (a + n) = quadByte q n) ∧
    (∀ x, x < a ∨ a + 5 ≤ x → t.obByte x = s.obByte x) ∧ t = { s with ob := t.ob })

/-- 10_state.md R26, R27, and the model's canonical form (log entry 4): every step keeps FB and OB
canonical and inside their capacities. -/
def Obligations.StepKeepsMemoriesCanonical : Prop :=
  ∀ s t : State, s.MemoriesWf → step s = .next t → t.MemoriesWf

/-- 10_state.md R26: a byte of FB changes only by the host's write of that byte while idle. -/
def Obligations.FbChangesOnlyByIdleHostWrite : Prop :=
  ∀ (s t : State) (a : Nat), step s = .next t → t.fbByte a ≠ s.fbByte a →
    s.status.busy = false ∧ s.hostMoves (.fbWrite a (t.fbByte a))

/-- 10_state.md R27, 20_memory.md R46, 70_reset_and_hazards.md R181: a byte of OB changes only by
the host's write of that byte while idle, or below OUT_BYTES by a walker step or by a reset during
a conversion. -/
def Obligations.ObChangesOnlyByIdleHostOrBelowOutBytes : Prop :=
  ∀ (s t : State) (a : Nat), s.Inv → step s = .next t → t.obByte a ≠ s.obByte a →
    (s.status.busy = false ∧ s.hostMoves (.obWrite a (t.obByte a))) ∨
    (s.status.busy = true ∧ a < s.outBytes.toNat ∧
      (s.microOpRuns .wclr ∨ s.microOpRuns .wlq ∨ s.microOpRuns .wcq ∨
        s.hostMoves .assertReset))

/-! ### Whole-machine rules -/

/-- 10_state.md R16, R18, R19, R20, 60_exceptions.md R168: what sets and what clears each STATUS
field. -/
def Obligations.StatusFieldsChangeOnlyAsTabled : Prop :=
  ∀ s t : State, step s = .next t →
    (s.status.busy = false → t.status.busy = true → s.commandRuns .convert ∧ s.Accepted) ∧
    (s.status.busy = true → t.status.busy = false →
      s.microOpRuns .wfin ∨ s.hostMoves .assertReset) ∧
    (s.status.done = false → t.status.done = true → s.microOpRuns .wfin) ∧
    (s.status.done = true → t.status.done = false →
      s.commandRuns .convert ∨ s.commandRuns .clrst ∨ s.hostMoves .assertReset) ∧
    (s.status.trunc = false → t.status.trunc = true →
      s.commandRuns .packl ∨ s.commandRuns .packc ∨ s.microOpRuns .wlq ∨ s.microOpRuns .wcq) ∧
    (s.status.trunc = true → t.status.trunc = false →
      s.commandRuns .clrst ∨ s.hostMoves .assertReset) ∧
    (s.status.eGeom = false → t.status.eGeom = true →
      (s.commandRuns .fsize ∨ s.commandRuns .convert) ∧
        geomCheck s.params s.w s.h = .invalidGeometry) ∧
    (s.status.eCap = false → t.status.eCap = true →
      (s.commandRuns .fsize ∨ s.commandRuns .convert) ∧
        geomCheck s.params s.w s.h = .capacity) ∧
    (s.status.eCmd = false → t.status.eCmd = true →
      s.status.busy = false ∧ ∃ c e, s.hostMoves (.regWrite 0 c) ∧
        decode (.cmdw c) = .error e) ∧
    (∀ f, s.status.hasFault f = true → t.status.hasFault f = false →
      s.commandRuns .clrst ∨ s.hostMoves .assertReset)

/-- 10_state.md R12, R13, R14, R21, R22, R24: which turns can change each register; the parameters
never change. -/
def Obligations.RegistersChangeOnlyByTheirWriters : Prop :=
  ∀ s t : State, step s = .next t → ¬s.hostMoves .assertReset →
    t.params = s.params ∧
    (t.width ≠ s.width → s.status.busy = false ∧ ∃ v, s.hostMoves (.regWrite 2 v)) ∧
    (t.height ≠ s.height → s.status.busy = false ∧ ∃ v, s.hostMoves (.regWrite 3 v)) ∧
    (t.qin0 ≠ s.qin0 → s.status.busy = false ∧ ∃ v, s.hostMoves (.regWrite 8 v)) ∧
    (t.qin1 ≠ s.qin1 → s.status.busy = false ∧ ∃ v, s.hostMoves (.regWrite 9 v)) ∧
    (t.qout0 ≠ s.qout0 ∨ t.qout1 ≠ s.qout1 →
      s.commandRuns .packl ∨ s.commandRuns .packc) ∧
    (t.lumaBytes ≠ s.lumaBytes ∨ t.chromaBytes ≠ s.chromaBytes ∨ t.outBytes ≠ s.outBytes →
      (s.commandRuns .fsize ∨ s.commandRuns .convert) ∧ s.Accepted) ∧
    (t.pc ≠ s.pc ∨ t.optr ≠ s.optr →
      (s.commandRuns .convert ∧ s.Accepted) ∨ s.microOpRuns .wclr ∨ s.microOpRuns .wlq ∨
        s.microOpRuns .wcq ∨ s.microOpRuns .wfin)

/-- 41_frame_codec.md R119: the transitions of PHASE, and none else but reset's. The premise is R17,
which every step keeps. -/
def Obligations.PhaseMovesOnlyAlongTheSequence : Prop :=
  ∀ s t : State, s.BusyMatchesPhase → step s = .next t → ¬s.hostMoves .assertReset →
    t.pc.phase ≠ s.pc.phase →
    (s.pc.phase = .idle ∧ t.pc.phase = .clear ∧ s.commandRuns .convert ∧ s.Accepted) ∨
    (s.pc.phase = .clear ∧ t.pc.phase = .luma ∧ s.microOpRuns .wclr) ∨
    (s.pc.phase = .luma ∧ t.pc.phase = .chroma ∧ s.microOpRuns .wlq) ∨
    (s.pc.phase = .chroma ∧ t.pc.phase = .fin ∧ s.microOpRuns .wcq) ∨
    (s.pc.phase = .fin ∧ t.pc.phase = .idle ∧ s.microOpRuns .wfin)

/-- 10_state.md R17: BUSY is 1 exactly when PHASE is not IDLE; every step keeps it so. -/
def Obligations.StepKeepsBusyMatchingPhase : Prop :=
  ∀ s t : State, s.BusyMatchesPhase → step s = .next t → t.BusyMatchesPhase

/-- 70_reset_and_hazards.md R180, R181: from any state `rst` leaves every register and the walker
at R30's values; FB is unchanged; OB is unchanged while idle and, during a conversion, at and above
the OUT_BYTES in force. What the bytes below hold is a free draw and nothing here says. -/
def Obligations.ResetClearsRegistersNotMemories : Prop :=
  ∀ s : State, s.hostMoves .assertReset →
    ∃ t, step s = .next t ∧ (∀ n, t.readReg n = 0#32) ∧
      t.pc = { phase := .idle, row := 0#16, col := 0#16 } ∧ t.optr = 0#32 ∧
      t.params = s.params ∧ (∀ a, t.fbByte a = s.fbByte a) ∧
      (s.status.busy = false → ∀ a, t.obByte a = s.obByte a) ∧
      (∀ a, s.outBytes.toNat ≤ a → t.obByte a = s.obByte a)

/-! ### The invariant -/

/-- 10_state.md R30: the state after reset meets the invariant, whatever the parameters R5
allows. -/
def Obligations.ResetMeetsTheInvariant : Prop :=
  (∀ p : Params, p.wf → (State.resetWith p).Inv) ∧ State.reset.Inv

/-- 41_frame_codec.md R120, 10_state.md R17, R18, R24: every step from a state that meets the
invariant answers only states that meet it. -/
def Obligations.StepKeepsTheInvariant : Prop :=
  ∀ s t : State, s.Inv → step s = .next t → t.Inv

/-- 60_exceptions.md R160, 20_memory.md R52: from a state that meets the invariant every step
answers a next state, unless the host makes an access its port cannot express. That an idle
walker's turn and an empty list of turns answer a next state is the model's choice, log entry 10;
that the expressible accesses alone go on is log entry 15. -/
def Obligations.StepGoesOnUnderTheInvariant : Prop :=
  ∀ s : State, s.Inv → (∀ a, s.hostMoves a → a.wf s.params) → StepGoesOn s

/-- 20_memory.md R52, 41_frame_codec.md R120: under the invariant each quad step reads FB below
3*npix and within the capacity, and writes OB below OUT_BYTES and within the capacity. -/
def Obligations.WalkerStaysInsideTheFrame : Prop :=
  ∀ s : State, s.Inv →
    (s.pc.phase = .luma → s.lumaAddr + 8 ≤ 3 * s.w * s.h ∧ s.storeAddr + 5 ≤ s.outBytes.toNat) ∧
    (s.pc.phase = .chroma → s.uAddr + 4 ≤ 3 * s.w * s.h ∧ s.vAddr + 4 ≤ 3 * s.w * s.h ∧
      s.storeAddr + 5 ≤ s.outBytes.toNat) ∧
    (s.pc.phase ≠ .idle → 3 * s.w * s.h ≤ s.params.fbBytes ∧
      s.outBytes.toNat ≤ s.params.obBytes)

/-- 41_frame_codec.md R119, R121: every walker step of a conversion leaves exactly one step fewer
to its end, whatever the samples are. -/
def Obligations.EachWalkerStepComesOneNearer : Prop :=
  ∀ s t : State, s.Inv → s.pc.phase ≠ .idle → s.walkerMoves = true → step s = .next t →
    t.stepsLeft + 1 = s.stepsLeft

/-- 41_frame_codec.md R116, R117, R122: the quads the walker has passed stand in OB as the closed
form says; no step, of the walker or of the host, undoes it but an assertion of reset
(70_reset_and_hazards.md R181), and WFIN leaves every quad of the frame standing. -/
def Obligations.StepKeepsTheOutputSoFar : Prop :=
  ∀ s t : State, s.Inv → s.OutputSoFar → step s = .next t →
    t.OutputSoFar ∧
      (s.microOpRuns .wfin →
        t.LumaDone (lumaQuads t.w t.h) ∧ t.ChromaDone (chromaQuads t.w t.h))

/-- 41_frame_codec.md R121, R122: an accepted CONVERT, then the walker alone: the conversion is
running before every one of its 3*npix/8 + 2 steps and idle after the last; then OB holds the
closed form below OUT_BYTES and its old bytes above, FB is unchanged, DONE is 1, BUSY is 0, and
TRUNC is the old flag or whether a sample of the frame had an ignored bit set. -/
def Obligations.ConversionGivesTheClosedForm : Prop :=
  ∀ s : State, s.Inv → s.turns = [] → s.status.busy = false → Conforming s.w s.h →
    Fits s.params s.w s.h →
    ∃ s1, exec .convert s = .next s1 ∧
      (∀ k, k < 3 * npix s.w s.h / 8 + 2 →
        ∃ u, Sys2Proof.core.run k s1 = .next u ∧ u.status.busy = true) ∧
      ∃ t, Sys2Proof.core.run (3 * npix s.w s.h / 8 + 2) s1 = .next t ∧
        (∀ i, i < lumaQuads s.w s.h → t.obQuad (5 * i) =
          pack40 (s.ySample (4 * i)) (s.ySample (4 * i + 1)) (s.ySample (4 * i + 2))
            (s.ySample (4 * i + 3))) ∧
        (∀ j, j < chromaQuads s.w s.h → t.obQuad (lumaSize s.w s.h + 5 * j) =
          pack40 (s.uSample (2 * j)) (s.vSample (2 * j)) (s.uSample (2 * j + 1))
            (s.vSample (2 * j + 1))) ∧
        (∀ a, outSize s.w s.h ≤ a → t.obByte a = s.obByte a) ∧
        t.fb = s.fb ∧ t.status.done = true ∧ t.status.busy = false ∧ t.pc.phase = .idle ∧
        (t.status.trunc = true ↔ s.status.trunc = true ∨ s.FrameTruncates) ∧
        t.lumaBytes.toNat = lumaSize s.w s.h ∧ t.chromaBytes.toNat = chromaSize s.w s.h ∧
        t.outBytes.toNat = outSize s.w s.h

/-- 41_frame_codec.md R123: where the closed form stands, each sample stands in its own quad at its
own place. -/
def Obligations.EachSampleStandsInItsOwnQuad : Prop :=
  ∀ s : State,
    (∀ n i, s.LumaDone n → i < 4 * n →
      (s.obQuad (5 * (i / 4))).extractLsb' (10 * (i % 4)) 10 = s.ySample i) ∧
    (∀ n j, s.ChromaDone n → j < 2 * n →
      (s.obQuad (lumaSize s.w s.h + 5 * (j / 2))).extractLsb' (10 * (2 * (j % 2))) 10 =
        s.uSample j ∧
      (s.obQuad (lumaSize s.w s.h + 5 * (j / 2))).extractLsb' (10 * (2 * (j % 2) + 1)) 10 =
        s.vSample j)

/-- 41_frame_codec.md R124: what the output must be depends on FB bytes 0 to 3*npix-1 and the
geometry alone. -/
def Obligations.OutputDependsOnTheFrameAlone : Prop :=
  ∀ s t : State, s.width = t.width → s.height = t.height → Conforming s.w s.h →
    (∀ a, a < 3 * npix s.w s.h → s.fbByte a = t.fbByte a) →
    (∀ i, i < lumaQuads s.w s.h → s.lumaQuadOf i = t.lumaQuadOf i) ∧
    (∀ j, j < chromaQuads s.w s.h → s.chromaQuadOf j = t.chromaQuadOf j)

/-- 41_frame_codec.md R119, R124: sample content never steers the machine: two states that agree on
everything but FB, OB, QIN, QOUT, TRUNC and what the host has read stay so step by step. -/
def Obligations.SampleContentNeverSteersTheMachine : Prop :=
  ∀ s s' t : State, s.SameControl s' → step s = .next t →
    ∃ t', step s' = .next t' ∧ t.SameControl t'
end

