-- ==== Sys2Proof/Laws/Decode.lean ====
section
/-! SUPPORT. What the decoder reads: the opcode map of 30_encoding.md R77 and R79. -/

namespace Sys2Proof

/-- The decoder reads back what the encoder writes. -/
@[simp] theorem decode_encode_command_words :
    decode (.cmdw 0#32) = .ok .nop ∧ decode (.cmdw 1#32) = .ok .packl ∧
      decode (.cmdw 2#32) = .ok .packc ∧ decode (.cmdw 3#32) = .ok .fsize ∧
      decode (.cmdw 4#32) = .ok .convert ∧ decode (.cmdw 5#32) = .ok .clrst := by decide

/-- A command word whose ZERO field is set is no command, R78. -/
theorem decodeCommand_zeroFieldSet {c : Word} (h : c.extractLsb' 8 24 ≠ 0#24) :
    decodeCommand c = .error .zeroFieldSet := if_pos h

/-- A command word whose OPCODE is above 5 is no command, R78. -/
theorem decodeCommand_opcodeReserved {c : Word} (h : c.extractLsb' 8 24 = 0#24)
    (h5 : 5 < (c.extractLsb' 0 8).toNat) : decodeCommand c = .error .opcodeReserved := by
  rw [decodeCommand, if_neg (not_not.2 h)]
  split <;> first | omega | rfl

/-- No command word decodes to a walker micro-operation. -/
theorem decodeCommand_ok {c : Word} {i : Instr} (h : decodeCommand c = .ok i) :
    i = .nop ∨ i = .packl ∨ i = .packc ∨ i = .fsize ∨ i = .convert ∨ i = .clrst := by
  unfold decodeCommand at h
  split at h
  · cases h
  · split at h <;> cases h <;> simp

/-- The value of a word with a clear ZERO field is its OPCODE. -/
theorem toNat_eq_opcode {c : Word} (h : c.extractLsb' 8 24 = 0#24) :
    c.toNat = (c.extractLsb' 0 8).toNat := by
  have := congrArg BitVec.toNat h
  simp [BitVec.extractLsb'_toNat, Nat.shiftRight_eq_div_pow] at this ⊢
  have := c.isLt
  omega

end Sys2Proof

namespace Sys2Proof.Machine

/-- What each PHASE selects, R79. -/
@[simp] theorem decode_phase_code (p : Phase) :
    decode (.walk p.code) =
      match p with
      | .idle => .error .walkerIdle
      | .clear => .ok .wclr
      | .luma => .ok .wlq
      | .chroma => .ok .wcq
      | .fin => .ok .wfin := by
  cases p <;> rfl

end Sys2Proof.Machine
end

