-- ==== Sys2Proof/Laws/Memory.lean ====
section
/-! SUPPORT. What the memory operations do: reads after writes, the canonical form kept, and the
bits of multi-byte reads. -/

namespace Sys2Proof.Machine

/-! ### One byte -/

@[simp] theorem Memory.lookup_nil (a : Nat) : Memory.lookup [] a = none := rfl

theorem Memory.lookup_cons (c : Host.Cell) (m : Memory) (a : Nat) :
    Memory.lookup (c :: m) a = if a = c.1 then some c.2 else m.lookup a := rfl

/-- A read after a write: the byte written at its address, the old byte elsewhere. -/
theorem Memory.lookup_write (m : Memory) (a : Nat) (b : Byte) (x : Nat) :
    (m.write a b).lookup x = if x = a then some b else m.lookup x := by
  induction m with
  | nil => simp [Memory.write, Memory.lookup]
  | cons c m ih =>
    unfold Memory.write
    split
    · simp [Memory.lookup_cons]
    · split
      · next h => subst h; by_cases hx : x = c.1 <;> simp [Memory.lookup_cons, hx]
      · next h =>
        simp only [Memory.lookup_cons, ih]
        by_cases hx : x = c.1
        · have : x ≠ a := by omega
          simp [hx]; omega
        · simp [hx]

/-- Every cell of a written memory is the new one or was there. -/
theorem Memory.mem_write {m : Memory} {a : Nat} {b : Byte} {c : Host.Cell}
    (h : c ∈ m.write a b) : c = (a, b) ∨ c ∈ m := by
  induction m with
  | nil => simpa [Memory.write] using h
  | cons d m ih =>
    unfold Memory.write at h
    split at h
    · simpa using h
    · split at h
      · rcases List.mem_cons.1 h with h | h
        · exact .inl h
        · exact .inr (List.mem_cons_of_mem _ h)
      · rcases List.mem_cons.1 h with h | h
        · exact .inr (h ▸ List.mem_cons_self ..)
        · exact (ih h).imp id (List.mem_cons_of_mem _)

/-- A write keeps the canonical form. -/
theorem Memory.wf_write {m : Memory} (h : m.wf) (a : Nat) (b : Byte) : (m.write a b).wf := by
  induction m with
  | nil => simp [Memory.write, Memory.wf]
  | cons c m ih =>
    obtain ⟨hc, hm⟩ := List.pairwise_cons.1 h
    unfold Memory.write
    split
    · next ha =>
      refine List.pairwise_cons.2 ⟨fun d hd => ?_, h⟩
      rcases List.mem_cons.1 hd with rfl | hd
      · exact ha
      · exact Nat.lt_trans ha (hc d hd)
    · split
      · next ha => exact List.pairwise_cons.2 ⟨fun d hd => by simpa [ha] using hc d hd, hm⟩
      · next h1 h2 =>
        refine List.pairwise_cons.2 ⟨fun d hd => ?_, ih hm⟩
        rcases Memory.mem_write hd with rfl | hd
        · show c.1 < a
          omega
        · exact hc d hd

/-! ### Filling from address 0 -/

theorem Memory.lookup_append (m m' : Memory) (x : Nat) :
    Memory.lookup (m ++ m') x = (m.lookup x).or (m'.lookup x) := by
  induction m with
  | nil => simp
  | cons c m ih =>
    rw [List.cons_append, Memory.lookup_cons, Memory.lookup_cons, ih]
    split <;> simp

theorem Memory.lookup_map_range (f : Nat → Byte) (n x : Nat) :
    Memory.lookup ((List.range n).map (fun a => (a, f a))) x =
      if x < n then some (f x) else none := by
  induction n with
  | zero => simp
  | succ n ih =>
    rw [List.range_succ, List.map_append, Memory.lookup_append, ih]
    simp only [List.map_cons, List.map_nil, Memory.lookup_cons, Memory.lookup_nil]
    by_cases h : x < n
    · simp [h, Nat.lt_succ_of_lt h]
    · by_cases h' : x = n
      · simp [h']
      · have : ¬x < n + 1 := by omega
        simp [h, h', this]

theorem Memory.lookup_filter_ge (m : Memory) (n x : Nat) :
    Memory.lookup (m.filter (fun c => n ≤ c.1)) x = if n ≤ x then m.lookup x else none := by
  induction m with
  | nil => simp
  | cons c m ih =>
    by_cases h : n ≤ c.1
    · rw [List.filter_cons_of_pos (by simpa using h), Memory.lookup_cons, Memory.lookup_cons, ih]
      by_cases hx : x = c.1
      · simp [hx, h]
      · simp [hx]
    · rw [List.filter_cons_of_neg (by simpa using h), ih, Memory.lookup_cons]
      by_cases hx : n ≤ x
      · have : x ≠ c.1 := by omega
        simp [this]
      · simp [hx]

/-- A read after a fill: the filled byte below the bound, the old byte at and above it. -/
theorem Memory.lookup_fill (m : Memory) (f : Nat → Byte) (n x : Nat) :
    (m.fill f n).lookup x = if x < n then some (f x) else m.lookup x := by
  unfold Memory.fill
  rw [Memory.lookup_append, Memory.lookup_map_range, Memory.lookup_filter_ge]
  by_cases h : x < n
  · simp [h]
  · simp [h, Nat.le_of_not_lt h]

theorem Memory.mem_fill {m : Memory} {f : Nat → Byte} {n : Nat} {c : Host.Cell}
    (h : c ∈ m.fill f n) : c.1 < n ∨ c ∈ m := by
  rcases List.mem_append.1 h with h | h
  · obtain ⟨a, ha, rfl⟩ := List.mem_map.1 h
    exact .inl (List.mem_range.1 ha)
  · exact .inr (List.mem_of_mem_filter h)

/-- A fill keeps the canonical form. -/
theorem Memory.wf_fill {m : Memory} (h : m.wf) (f : Nat → Byte) (n : Nat) : (m.fill f n).wf := by
  refine List.pairwise_append.2 ⟨?_, List.Pairwise.filter _ h, fun c hc d hd => ?_⟩
  · exact List.pairwise_map.2 (List.pairwise_lt_range (n := n))
  · obtain ⟨a, ha, rfl⟩ := List.mem_map.1 hc
    have h1 : a < n := List.mem_range.1 ha
    have h2 : n ≤ d.1 := by simpa using (List.mem_filter.1 hd).2
    show a < d.1
    omega

/-! ### Several bytes -/

/-- Bit `i` of a multi-byte read is bit `i mod 8` of the byte `i / 8` above its address. -/
theorem memRead_getLsbD (rd : Nat → Byte) (a n i : Nat) :
    (memRead rd a n).getLsbD i = (decide (i < 8 * n) && (rd (a + i / 8)).getLsbD (i % 8)) := by
  induction n with
  | zero => simp [memRead]
  | succ n ih =>
    rw [memRead, BitVec.getLsbD_cast, BitVec.getLsbD_append]
    by_cases h : i < 8 * n
    · rw [if_pos h, ih]
      simp [h, Nat.lt_of_lt_of_le h (by omega : 8 * n ≤ 8 * (n + 1))]
    · by_cases h2 : i < 8 * (n + 1)
      · have h3 : i / 8 = n := by omega
        have h4 : i % 8 = i - 8 * n := by omega
        simp [h, h2, h3, h4]
      · have h3 : 8 ≤ i - 8 * n := by omega
        simp [h, h2, BitVec.getLsbD_of_ge _ _ h3]

/-- A multi-byte read depends on the bytes it names alone. -/
theorem memRead_congr {rd rd' : Nat → Byte} {a n : Nat}
    (h : ∀ x, a ≤ x → x < a + n → rd x = rd' x) : memRead rd a n = memRead rd' a n := by
  refine BitVec.eq_of_getLsbD_eq fun i hi => ?_
  rw [memRead_getLsbD, memRead_getLsbD, h (a + i / 8) (by omega) (by omega)]

/-- A read after a multi-byte write. -/
theorem memWrite_lookup {w : Nat} (m : Memory) (a : Nat) (v : BitVec w) (n x : Nat) :
    (memWrite m a v n).lookup x =
      if a ≤ x ∧ x < a + n then some (v.extractLsb' (8 * (x - a)) 8) else m.lookup x := by
  induction n with
  | zero =>
    rw [if_neg (by omega), memWrite]
  | succ n ih =>
    rw [memWrite, Memory.lookup_write, ih]
    by_cases h : x = a + n
    · subst h
      simp
    · by_cases h2 : a ≤ x ∧ x < a + n
      · have : a ≤ x ∧ x < a + (n + 1) := by omega
        simp [h, h2, this]
      · have : ¬(a ≤ x ∧ x < a + (n + 1)) := by omega
        simp [h, h2, this]

theorem mem_memWrite {w : Nat} {m : Memory} {a : Nat} {v : BitVec w} {n : Nat} {c : Host.Cell}
    (h : c ∈ memWrite m a v n) : c.1 < a + n ∨ c ∈ m := by
  induction n with
  | zero => exact .inr h
  | succ n ih =>
    rw [memWrite] at h
    rcases Memory.mem_write h with rfl | h
    · exact .inl (by show a + n < a + (n + 1); omega)
    · exact (ih h).imp (by omega) id

/-- A multi-byte write keeps the canonical form. -/
theorem wf_memWrite {w : Nat} {m : Memory} (h : m.wf) (a : Nat) (v : BitVec w) (n : Nat) :
    (memWrite m a v n).wf := by
  induction n with
  | zero => exact h
  | succ n ih => exact Memory.wf_write ih _ _

/-! ### FB and OB as the ports see them -/

/-- Every byte read of FB depends on FB alone. -/
theorem State.fbByte_congr {s t : State} (h : s.fb = t.fb) : s.fbByte = t.fbByte := by
  funext a
  rw [State.fbByte, State.fbByte, h]

/-- Every byte read of OB depends on OB alone. -/
theorem State.obByte_congr {s t : State} (h : s.ob = t.ob) : s.obByte = t.obByte := by
  funext a
  rw [State.obByte, State.obByte, h]

/-- A walker read of FB succeeds exactly within the capacity. -/
theorem State.readFb_eq_some {s : State} {a n : Nat} {g : BitVec (8 * n)} :
    s.readFb a n = some g ↔ a + n ≤ s.params.fbBytes ∧ memRead s.fbByte a n = g := by
  unfold State.readFb
  split <;> simp_all

/-- A walker write of OB succeeds exactly within the capacity, and changes OB alone. -/
theorem State.writeOb_eq_some {w : Nat} {s t : State} {a n : Nat} {v : BitVec w} :
    s.writeOb a v n = some t ↔
      a + n ≤ s.params.obBytes ∧ t = { s with ob := memWrite s.ob a v n } := by
  unfold State.writeOb
  split <;> simp_all [eq_comm]

/-- Clearing OB succeeds exactly within the capacity, and changes OB alone. -/
theorem State.clearOb_eq_some {s t : State} {n : Nat} :
    s.clearOb n = some t ↔
      n ≤ s.params.obBytes ∧ t = { s with ob := s.ob.fill (fun _ => 0#8) n } := by
  unfold State.clearOb
  split <;> simp_all [eq_comm]

@[simp] theorem State.spaceByte_fb (s : State) : s.spaceByte .fb = s.fbByte := rfl
@[simp] theorem State.spaceByte_ob (s : State) : s.spaceByte .ob = s.obByte := rfl
@[simp] theorem State.capacity_fb (s : State) : s.capacity .fb = s.params.fbBytes := rfl
@[simp] theorem State.capacity_ob (s : State) : s.capacity .ob = s.params.obBytes := rfl

/-- The byte of FB at an address after a write of one byte. -/
theorem State.fbByte_write (s : State) (a : Nat) (b : Byte) (x : Nat) :
    ({ s with fb := s.fb.write a b } : State).fbByte x = if x = a then b else s.fbByte x := by
  simp only [State.fbByte, Memory.lookup_write]
  split <;> rfl

/-- The byte of OB at an address after a write of one byte. -/
theorem State.obByte_write (s : State) (a : Nat) (b : Byte) (x : Nat) :
    ({ s with ob := s.ob.write a b } : State).obByte x = if x = a then b else s.obByte x := by
  simp only [State.obByte, Memory.lookup_write]
  split <;> rfl

end Sys2Proof.Machine
end

