-- ==== Sys2Proof/Laws/Quadpack.lean ====
section
/-! SUPPORT. The packing function bit by bit (40_quad_packer.md R91 to R95). -/

namespace Sys2Proof.Machine

theorem sampleValue_getLsbD (hw : Half) (i : Nat) :
    (sampleValue hw).getLsbD i = (decide (i < 10) && hw.getLsbD i) := by
  simp [sampleValue]

/-- An ignored bit is set exactly when some bit 10 to 15 is. -/
theorem hasIgnoredBits_iff (hw : Half) :
    hasIgnoredBits hw = true ↔ ∃ i, 10 ≤ i ∧ i < 16 ∧ hw.getLsbD i = true := by
  rw [hasIgnoredBits, bne_iff_ne, ne_eq, ← not_iff_not, not_not]
  constructor
  · rintro h ⟨i, h1, h2, h3⟩
    have := congrArg (·.getLsbD (i - 10)) h
    simp only [BitVec.getLsbD_extractLsb', BitVec.getLsbD_zero] at this
    rw [show 10 + (i - 10) = i by omega, h3] at this
    simp at this
    omega
  · intro h
    refine BitVec.eq_of_getLsbD_eq fun i hi => ?_
    rw [BitVec.getLsbD_extractLsb', BitVec.getLsbD_zero]
    by_contra hc
    exact h ⟨10 + i, by omega, by omega, by simpa [hi] using hc⟩

/-- Bit `i` of a packed value is bit `i mod 10` of the sample `i / 10`, R94. -/
theorem pack40_getLsbD (a b c d : Sample) (i : Nat) :
    (pack40 a b c d).getLsbD i =
      if i < 10 then a.getLsbD i
      else if i < 20 then b.getLsbD (i - 10)
      else if i < 30 then c.getLsbD (i - 20)
      else d.getLsbD (i - 30) := by
  simp only [pack40, BitVec.getLsbD_or, BitVec.getLsbD_shiftLeft, BitVec.getLsbD_setWidth,
    BitVec.zeroExtend]
  by_cases h1 : i < 10
  · simp [h1, show i < 40 by omega, show i < 20 by omega, show i < 30 by omega]
  · by_cases h2 : i < 20
    · simp [h1, h2, show i < 40 by omega, show i < 30 by omega, show i - 10 < 40 by omega,
        BitVec.getLsbD_of_ge a i (by omega)]
    · by_cases h3 : i < 30
      · simp [h1, h2, h3, show i < 40 by omega, show i - 20 < 40 by omega,
          BitVec.getLsbD_of_ge a i (by omega), BitVec.getLsbD_of_ge b (i - 10) (by omega)]
      · simp [h1, h2, h3, BitVec.getLsbD_of_ge a i (by omega),
          BitVec.getLsbD_of_ge b (i - 10) (by omega), BitVec.getLsbD_of_ge c (i - 20) (by omega)]
        by_cases h4 : i < 40
        · simp [h4, show i - 30 < 40 by omega]
        · simp [h4, BitVec.getLsbD_of_ge d (i - 30) (by omega)]

/-- The four halfwords of a gather block, R91. -/
theorem gather_getLsbD (g : GatherBlock) (i : Nat) :
    (gather g).v0.getLsbD i = (decide (i < 16) && g.getLsbD i) ∧
      (gather g).v1.getLsbD i = (decide (i < 16) && g.getLsbD (16 + i)) ∧
      (gather g).v2.getLsbD i = (decide (i < 16) && g.getLsbD (32 + i)) ∧
      (gather g).v3.getLsbD i = (decide (i < 16) && g.getLsbD (48 + i)) := by
  simp [gather]

/-- `quadpack(LUMA, G)` packs the four masked halfwords in memory order, R93. -/
theorem quadpackValue_luma (g : GatherBlock) :
    quadpackValue .luma g =
      pack40 (sampleValue (gather g).v0) (sampleValue (gather g).v1)
        (sampleValue (gather g).v2) (sampleValue (gather g).v3) := rfl

/-- `quadpack(CHROMA, G)` exchanges the two middle ones, R93. -/
theorem quadpackValue_chroma (g : GatherBlock) :
    quadpackValue .chroma g =
      pack40 (sampleValue (gather g).v0) (sampleValue (gather g).v2)
        (sampleValue (gather g).v1) (sampleValue (gather g).v3) := rfl

/-- The quad port's block holds QIN0 in its low half and QIN1 in its high half, R21. -/
theorem gather_portBlock (s : State) :
    gather s.portBlock =
      { v0 := s.qin0.extractLsb' 0 16, v1 := s.qin0.extractLsb' 16 16,
        v2 := s.qin1.extractLsb' 0 16, v3 := s.qin1.extractLsb' 16 16 } := by
  simp only [gather, State.portBlock, Four.mk.injEq]
  refine ⟨?_, ?_, ?_, ?_⟩ <;> refine BitVec.eq_of_getLsbD_eq fun i hi => ?_ <;>
    simp only [BitVec.getLsbD_extractLsb', BitVec.getLsbD_append, hi, decide_true, Bool.true_and]
  · rw [if_pos (by omega)]
  · rw [if_pos (by omega)]
  · rw [if_neg (by omega)]; congr 1; omega
  · rw [if_neg (by omega)]; congr 1; omega

/-- Halfword `k` of a multi-byte read is the Padded Sample two bytes further on each time. -/
theorem extract_memRead (s : State) (a n k : Nat) (hk : 2 * k + 2 ≤ n) :
    (memRead s.fbByte a n).extractLsb' (16 * k) 16 = s.storedSample (a + 2 * k) := by
  refine BitVec.eq_of_getLsbD_eq fun i hi => ?_
  rw [BitVec.getLsbD_extractLsb', State.storedSample, memRead_getLsbD, memRead_getLsbD]
  have h1 : 16 * k + i < 8 * n := by omega
  have h2 : i < 8 * 2 := by omega
  have h3 : a + (16 * k + i) / 8 = a + 2 * k + i / 8 := by omega
  have h4 : (16 * k + i) % 8 = i % 8 := by omega
  simp [hi, h1, h3, h4]

/-- An 8-byte read of FB gathers the four Padded Samples stored there, R74. -/
theorem gather_lumaRead (s : State) (a : Nat) :
    gather (memRead s.fbByte a 8) =
      { v0 := s.storedSample a, v1 := s.storedSample (a + 2),
        v2 := s.storedSample (a + 4), v3 := s.storedSample (a + 6) } := by
  rw [gather, Four.mk.injEq]
  exact ⟨extract_memRead s a 8 0 (by omega), extract_memRead s a 8 1 (by omega),
    extract_memRead s a 8 2 (by omega), extract_memRead s a 8 3 (by omega)⟩

/-- The U chunk below the V chunk gathers two Padded Samples of each plane, R75. -/
theorem gather_chromaRead (s : State) (u v : Nat) :
    gather (memRead s.fbByte v 4 ++ memRead s.fbByte u 4 : GatherBlock) =
      { v0 := s.storedSample u, v1 := s.storedSample (u + 2),
        v2 := s.storedSample v, v3 := s.storedSample (v + 2) } := by
  have low : ∀ k, k < 2 → (memRead s.fbByte v 4 ++ memRead s.fbByte u 4 : GatherBlock).extractLsb'
      (16 * k) 16 = s.storedSample (u + 2 * k) := by
    intro k hk
    rw [← extract_memRead s u 4 k (by omega)]
    refine BitVec.eq_of_getLsbD_eq fun i hi => ?_
    rw [BitVec.getLsbD_extractLsb', BitVec.getLsbD_extractLsb', BitVec.getLsbD_append,
      if_pos (by omega)]
  have high : ∀ k, k < 2 → (memRead s.fbByte v 4 ++ memRead s.fbByte u 4 : GatherBlock).extractLsb'
      (32 + 16 * k) 16 = s.storedSample (v + 2 * k) := by
    intro k hk
    rw [← extract_memRead s v 4 k (by omega)]
    refine BitVec.eq_of_getLsbD_eq fun i hi => ?_
    rw [BitVec.getLsbD_extractLsb', BitVec.getLsbD_extractLsb', BitVec.getLsbD_append,
      if_neg (by omega), show 32 + 16 * k + i - 8 * 4 = 16 * k + i by omega]
  rw [gather, Four.mk.injEq]
  exact ⟨low 0 (by omega), low 1 (by omega), high 0 (by omega), high 1 (by omega)⟩

end Sys2Proof.Machine
end

