-- ==== Sys2Proof/Laws/State.lean ====
section
/-! SUPPORT. What each named update of State leaves in each field. -/

namespace Sys2Proof.Machine

/-! ### writeSizes -/

@[simp] theorem State.writeSizes_params (s : State) : s.writeSizes.params = s.params := rfl
@[simp] theorem State.writeSizes_width (s : State) : s.writeSizes.width = s.width := rfl
@[simp] theorem State.writeSizes_height (s : State) : s.writeSizes.height = s.height := rfl
@[simp] theorem State.writeSizes_lumaBytes (s : State) :
    s.writeSizes.lumaBytes = BitVec.ofNat 32 (lumaSize s.w s.h) := rfl
@[simp] theorem State.writeSizes_chromaBytes (s : State) :
    s.writeSizes.chromaBytes = BitVec.ofNat 32 (chromaSize s.w s.h) := rfl
@[simp] theorem State.writeSizes_outBytes (s : State) :
    s.writeSizes.outBytes = BitVec.ofNat 32 (outSize s.w s.h) := rfl
@[simp] theorem State.writeSizes_status (s : State) : s.writeSizes.status = s.status := rfl
@[simp] theorem State.writeSizes_qin0 (s : State) : s.writeSizes.qin0 = s.qin0 := rfl
@[simp] theorem State.writeSizes_qin1 (s : State) : s.writeSizes.qin1 = s.qin1 := rfl
@[simp] theorem State.writeSizes_qout0 (s : State) : s.writeSizes.qout0 = s.qout0 := rfl
@[simp] theorem State.writeSizes_qout1 (s : State) : s.writeSizes.qout1 = s.qout1 := rfl
@[simp] theorem State.writeSizes_pc (s : State) : s.writeSizes.pc = s.pc := rfl
@[simp] theorem State.writeSizes_optr (s : State) : s.writeSizes.optr = s.optr := rfl
@[simp] theorem State.writeSizes_fb (s : State) : s.writeSizes.fb = s.fb := rfl
@[simp] theorem State.writeSizes_ob (s : State) : s.writeSizes.ob = s.ob := rfl
@[simp] theorem State.writeSizes_turns (s : State) : s.writeSizes.turns = s.turns := rfl
@[simp] theorem State.writeSizes_replies (s : State) : s.writeSizes.replies = s.replies := rfl
@[simp] theorem State.writeSizes_draws (s : State) : s.writeSizes.draws = s.draws := rfl

/-! ### writeQout -/

@[simp] theorem State.writeQout_params (s : State) (q : Quad) :
    (s.writeQout q).params = s.params := rfl
@[simp] theorem State.writeQout_width (s : State) (q : Quad) :
    (s.writeQout q).width = s.width := rfl
@[simp] theorem State.writeQout_height (s : State) (q : Quad) :
    (s.writeQout q).height = s.height := rfl
@[simp] theorem State.writeQout_lumaBytes (s : State) (q : Quad) :
    (s.writeQout q).lumaBytes = s.lumaBytes := rfl
@[simp] theorem State.writeQout_chromaBytes (s : State) (q : Quad) :
    (s.writeQout q).chromaBytes = s.chromaBytes := rfl
@[simp] theorem State.writeQout_outBytes (s : State) (q : Quad) :
    (s.writeQout q).outBytes = s.outBytes := rfl
@[simp] theorem State.writeQout_status (s : State) (q : Quad) :
    (s.writeQout q).status = s.status := rfl
@[simp] theorem State.writeQout_qin0 (s : State) (q : Quad) : (s.writeQout q).qin0 = s.qin0 := rfl
@[simp] theorem State.writeQout_qin1 (s : State) (q : Quad) : (s.writeQout q).qin1 = s.qin1 := rfl
@[simp] theorem State.writeQout_qout0 (s : State) (q : Quad) :
    (s.writeQout q).qout0 = q.extractLsb' 0 32 := rfl
@[simp] theorem State.writeQout_qout1 (s : State) (q : Quad) :
    (s.writeQout q).qout1 = q.extractLsb' 32 8 := rfl
@[simp] theorem State.writeQout_pc (s : State) (q : Quad) : (s.writeQout q).pc = s.pc := rfl
@[simp] theorem State.writeQout_optr (s : State) (q : Quad) : (s.writeQout q).optr = s.optr := rfl
@[simp] theorem State.writeQout_fb (s : State) (q : Quad) : (s.writeQout q).fb = s.fb := rfl
@[simp] theorem State.writeQout_ob (s : State) (q : Quad) : (s.writeQout q).ob = s.ob := rfl
@[simp] theorem State.writeQout_turns (s : State) (q : Quad) :
    (s.writeQout q).turns = s.turns := rfl
@[simp] theorem State.writeQout_replies (s : State) (q : Quad) :
    (s.writeQout q).replies = s.replies := rfl
@[simp] theorem State.writeQout_draws (s : State) (q : Quad) :
    (s.writeQout q).draws = s.draws := rfl

/-! ### raise -/

@[simp] theorem State.raise_params (s : State) (f : CommandFault) :
    (s.raise f).params = s.params := rfl
@[simp] theorem State.raise_width (s : State) (f : CommandFault) :
    (s.raise f).width = s.width := rfl
@[simp] theorem State.raise_height (s : State) (f : CommandFault) :
    (s.raise f).height = s.height := rfl
@[simp] theorem State.raise_lumaBytes (s : State) (f : CommandFault) :
    (s.raise f).lumaBytes = s.lumaBytes := rfl
@[simp] theorem State.raise_chromaBytes (s : State) (f : CommandFault) :
    (s.raise f).chromaBytes = s.chromaBytes := rfl
@[simp] theorem State.raise_outBytes (s : State) (f : CommandFault) :
    (s.raise f).outBytes = s.outBytes := rfl
@[simp] theorem State.raise_status (s : State) (f : CommandFault) :
    (s.raise f).status = s.status.setFault f := rfl
@[simp] theorem State.raise_qin0 (s : State) (f : CommandFault) : (s.raise f).qin0 = s.qin0 := rfl
@[simp] theorem State.raise_qin1 (s : State) (f : CommandFault) : (s.raise f).qin1 = s.qin1 := rfl
@[simp] theorem State.raise_qout0 (s : State) (f : CommandFault) :
    (s.raise f).qout0 = s.qout0 := rfl
@[simp] theorem State.raise_qout1 (s : State) (f : CommandFault) :
    (s.raise f).qout1 = s.qout1 := rfl
@[simp] theorem State.raise_pc (s : State) (f : CommandFault) : (s.raise f).pc = s.pc := rfl
@[simp] theorem State.raise_optr (s : State) (f : CommandFault) : (s.raise f).optr = s.optr := rfl
@[simp] theorem State.raise_fb (s : State) (f : CommandFault) : (s.raise f).fb = s.fb := rfl
@[simp] theorem State.raise_ob (s : State) (f : CommandFault) : (s.raise f).ob = s.ob := rfl
@[simp] theorem State.raise_turns (s : State) (f : CommandFault) :
    (s.raise f).turns = s.turns := rfl
@[simp] theorem State.raise_replies (s : State) (f : CommandFault) :
    (s.raise f).replies = s.replies := rfl
@[simp] theorem State.raise_draws (s : State) (f : CommandFault) :
    (s.raise f).draws = s.draws := rfl

/-! ### reply -/

@[simp] theorem State.reply_params (s : State) (r : Reply) : (s.reply r).params = s.params := rfl
@[simp] theorem State.reply_width (s : State) (r : Reply) : (s.reply r).width = s.width := rfl
@[simp] theorem State.reply_height (s : State) (r : Reply) : (s.reply r).height = s.height := rfl
@[simp] theorem State.reply_lumaBytes (s : State) (r : Reply) :
    (s.reply r).lumaBytes = s.lumaBytes := rfl
@[simp] theorem State.reply_chromaBytes (s : State) (r : Reply) :
    (s.reply r).chromaBytes = s.chromaBytes := rfl
@[simp] theorem State.reply_outBytes (s : State) (r : Reply) :
    (s.reply r).outBytes = s.outBytes := rfl
@[simp] theorem State.reply_status (s : State) (r : Reply) : (s.reply r).status = s.status := rfl
@[simp] theorem State.reply_qin0 (s : State) (r : Reply) : (s.reply r).qin0 = s.qin0 := rfl
@[simp] theorem State.reply_qin1 (s : State) (r : Reply) : (s.reply r).qin1 = s.qin1 := rfl
@[simp] theorem State.reply_qout0 (s : State) (r : Reply) : (s.reply r).qout0 = s.qout0 := rfl
@[simp] theorem State.reply_qout1 (s : State) (r : Reply) : (s.reply r).qout1 = s.qout1 := rfl
@[simp] theorem State.reply_pc (s : State) (r : Reply) : (s.reply r).pc = s.pc := rfl
@[simp] theorem State.reply_optr (s : State) (r : Reply) : (s.reply r).optr = s.optr := rfl
@[simp] theorem State.reply_fb (s : State) (r : Reply) : (s.reply r).fb = s.fb := rfl
@[simp] theorem State.reply_ob (s : State) (r : Reply) : (s.reply r).ob = s.ob := rfl
@[simp] theorem State.reply_turns (s : State) (r : Reply) : (s.reply r).turns = s.turns := rfl
@[simp] theorem State.reply_replies (s : State) (r : Reply) :
    (s.reply r).replies = r :: s.replies := rfl
@[simp] theorem State.reply_draws (s : State) (r : Reply) : (s.reply r).draws = s.draws := rfl

/-! ### startWalk -/

@[simp] theorem State.startWalk_params (s : State) : s.startWalk.params = s.params := rfl
@[simp] theorem State.startWalk_width (s : State) : s.startWalk.width = s.width := rfl
@[simp] theorem State.startWalk_height (s : State) : s.startWalk.height = s.height := rfl
@[simp] theorem State.startWalk_lumaBytes (s : State) : s.startWalk.lumaBytes = s.lumaBytes := rfl
@[simp] theorem State.startWalk_chromaBytes (s : State) :
    s.startWalk.chromaBytes = s.chromaBytes := rfl
@[simp] theorem State.startWalk_outBytes (s : State) : s.startWalk.outBytes = s.outBytes := rfl
@[simp] theorem State.startWalk_status (s : State) : s.startWalk.status = s.status.setBusy := rfl
@[simp] theorem State.startWalk_qin0 (s : State) : s.startWalk.qin0 = s.qin0 := rfl
@[simp] theorem State.startWalk_qin1 (s : State) : s.startWalk.qin1 = s.qin1 := rfl
@[simp] theorem State.startWalk_qout0 (s : State) : s.startWalk.qout0 = s.qout0 := rfl
@[simp] theorem State.startWalk_qout1 (s : State) : s.startWalk.qout1 = s.qout1 := rfl
@[simp] theorem State.startWalk_pc (s : State) :
    s.startWalk.pc = { phase := .clear, row := 0#16, col := 0#16 } := rfl
@[simp] theorem State.startWalk_optr (s : State) : s.startWalk.optr = 0#32 := rfl
@[simp] theorem State.startWalk_fb (s : State) : s.startWalk.fb = s.fb := rfl
@[simp] theorem State.startWalk_ob (s : State) : s.startWalk.ob = s.ob := rfl
@[simp] theorem State.startWalk_turns (s : State) : s.startWalk.turns = s.turns := rfl
@[simp] theorem State.startWalk_replies (s : State) : s.startWalk.replies = s.replies := rfl
@[simp] theorem State.startWalk_draws (s : State) : s.startWalk.draws = s.draws := rfl

/-! ### assertReset -/

@[simp] theorem State.assertReset_params (s : State) : s.assertReset.params = s.params := rfl
@[simp] theorem State.assertReset_width (s : State) : s.assertReset.width = 0#16 := rfl
@[simp] theorem State.assertReset_height (s : State) : s.assertReset.height = 0#16 := rfl
@[simp] theorem State.assertReset_lumaBytes (s : State) : s.assertReset.lumaBytes = 0#32 := rfl
@[simp] theorem State.assertReset_chromaBytes (s : State) : s.assertReset.chromaBytes = 0#32 := rfl
@[simp] theorem State.assertReset_outBytes (s : State) : s.assertReset.outBytes = 0#32 := rfl
@[simp] theorem State.assertReset_status (s : State) : s.assertReset.status = Status.cleared := rfl
@[simp] theorem State.assertReset_qin0 (s : State) : s.assertReset.qin0 = 0#32 := rfl
@[simp] theorem State.assertReset_qin1 (s : State) : s.assertReset.qin1 = 0#32 := rfl
@[simp] theorem State.assertReset_qout0 (s : State) : s.assertReset.qout0 = 0#32 := rfl
@[simp] theorem State.assertReset_qout1 (s : State) : s.assertReset.qout1 = 0#8 := rfl
@[simp] theorem State.assertReset_pc (s : State) :
    s.assertReset.pc = { phase := .idle, row := 0#16, col := 0#16 } := rfl
@[simp] theorem State.assertReset_optr (s : State) : s.assertReset.optr = 0#32 := rfl
@[simp] theorem State.assertReset_fb (s : State) : s.assertReset.fb = s.fb := rfl
@[simp] theorem State.assertReset_ob (s : State) : s.assertReset.ob = s.obAfterReset := rfl
@[simp] theorem State.assertReset_turns (s : State) : s.assertReset.turns = s.turns := rfl
@[simp] theorem State.assertReset_replies (s : State) : s.assertReset.replies = s.replies := rfl
@[simp] theorem State.assertReset_draws (s : State) : s.assertReset.draws = s.draws + 1 := rfl

/-! ### packPort -/

@[simp] theorem State.packPort_params (s : State) (k : Kind) :
    (packPort k s).params = s.params := rfl
@[simp] theorem State.packPort_width (s : State) (k : Kind) : (packPort k s).width = s.width := rfl
@[simp] theorem State.packPort_height (s : State) (k : Kind) :
    (packPort k s).height = s.height := rfl
@[simp] theorem State.packPort_lumaBytes (s : State) (k : Kind) :
    (packPort k s).lumaBytes = s.lumaBytes := rfl
@[simp] theorem State.packPort_chromaBytes (s : State) (k : Kind) :
    (packPort k s).chromaBytes = s.chromaBytes := rfl
@[simp] theorem State.packPort_outBytes (s : State) (k : Kind) :
    (packPort k s).outBytes = s.outBytes := rfl
@[simp] theorem State.packPort_status (s : State) (k : Kind) :
    (packPort k s).status = s.status.accumulateTrunc (quadpackTruncates s.portBlock) := rfl
@[simp] theorem State.packPort_qin0 (s : State) (k : Kind) : (packPort k s).qin0 = s.qin0 := rfl
@[simp] theorem State.packPort_qin1 (s : State) (k : Kind) : (packPort k s).qin1 = s.qin1 := rfl
@[simp] theorem State.packPort_qout0 (s : State) (k : Kind) :
    (packPort k s).qout0 = (quadpackValue k s.portBlock).extractLsb' 0 32 := rfl
@[simp] theorem State.packPort_qout1 (s : State) (k : Kind) :
    (packPort k s).qout1 = (quadpackValue k s.portBlock).extractLsb' 32 8 := rfl
@[simp] theorem State.packPort_pc (s : State) (k : Kind) : (packPort k s).pc = s.pc := rfl
@[simp] theorem State.packPort_optr (s : State) (k : Kind) : (packPort k s).optr = s.optr := rfl
@[simp] theorem State.packPort_fb (s : State) (k : Kind) : (packPort k s).fb = s.fb := rfl
@[simp] theorem State.packPort_ob (s : State) (k : Kind) : (packPort k s).ob = s.ob := rfl
@[simp] theorem State.packPort_turns (s : State) (k : Kind) : (packPort k s).turns = s.turns := rfl
@[simp] theorem State.packPort_replies (s : State) (k : Kind) :
    (packPort k s).replies = s.replies := rfl
@[simp] theorem State.packPort_draws (s : State) (k : Kind) : (packPort k s).draws = s.draws := rfl

/-! ### Status.accumulateTrunc -/

@[simp] theorem Status.accumulateTrunc_busy (f : Status) (t : Bool) : (f.accumulateTrunc t).busy = f.busy := rfl
@[simp] theorem Status.accumulateTrunc_done (f : Status) (t : Bool) : (f.accumulateTrunc t).done = f.done := rfl
@[simp] theorem Status.accumulateTrunc_trunc (f : Status) (t : Bool) : (f.accumulateTrunc t).trunc = (f.trunc || t) := rfl
@[simp] theorem Status.accumulateTrunc_eGeom (f : Status) (t : Bool) : (f.accumulateTrunc t).eGeom = f.eGeom := rfl
@[simp] theorem Status.accumulateTrunc_eCap (f : Status) (t : Bool) : (f.accumulateTrunc t).eCap = f.eCap := rfl
@[simp] theorem Status.accumulateTrunc_eCmd (f : Status) (t : Bool) : (f.accumulateTrunc t).eCmd = f.eCmd := rfl

/-! ### Status.clearDone -/

@[simp] theorem Status.clearDone_busy (f : Status) : f.clearDone.busy = f.busy := rfl
@[simp] theorem Status.clearDone_done (f : Status) : f.clearDone.done = false := rfl
@[simp] theorem Status.clearDone_trunc (f : Status) : f.clearDone.trunc = f.trunc := rfl
@[simp] theorem Status.clearDone_eGeom (f : Status) : f.clearDone.eGeom = f.eGeom := rfl
@[simp] theorem Status.clearDone_eCap (f : Status) : f.clearDone.eCap = f.eCap := rfl
@[simp] theorem Status.clearDone_eCmd (f : Status) : f.clearDone.eCmd = f.eCmd := rfl

/-! ### Status.setBusy -/

@[simp] theorem Status.setBusy_busy (f : Status) : f.setBusy.busy = true := rfl
@[simp] theorem Status.setBusy_done (f : Status) : f.setBusy.done = f.done := rfl
@[simp] theorem Status.setBusy_trunc (f : Status) : f.setBusy.trunc = f.trunc := rfl
@[simp] theorem Status.setBusy_eGeom (f : Status) : f.setBusy.eGeom = f.eGeom := rfl
@[simp] theorem Status.setBusy_eCap (f : Status) : f.setBusy.eCap = f.eCap := rfl
@[simp] theorem Status.setBusy_eCmd (f : Status) : f.setBusy.eCmd = f.eCmd := rfl

/-! ### Status.finish -/

@[simp] theorem Status.finish_busy (f : Status) : f.finish.busy = false := rfl
@[simp] theorem Status.finish_done (f : Status) : f.finish.done = true := rfl
@[simp] theorem Status.finish_trunc (f : Status) : f.finish.trunc = f.trunc := rfl
@[simp] theorem Status.finish_eGeom (f : Status) : f.finish.eGeom = f.eGeom := rfl
@[simp] theorem Status.finish_eCap (f : Status) : f.finish.eCap = f.eCap := rfl
@[simp] theorem Status.finish_eCmd (f : Status) : f.finish.eCmd = f.eCmd := rfl

/-! ### Status.clearSticky -/

@[simp] theorem Status.clearSticky_busy (f : Status) : f.clearSticky.busy = f.busy := rfl
@[simp] theorem Status.clearSticky_done (f : Status) : f.clearSticky.done = false := rfl
@[simp] theorem Status.clearSticky_trunc (f : Status) : f.clearSticky.trunc = false := rfl
@[simp] theorem Status.clearSticky_eGeom (f : Status) : f.clearSticky.eGeom = false := rfl
@[simp] theorem Status.clearSticky_eCap (f : Status) : f.clearSticky.eCap = false := rfl
@[simp] theorem Status.clearSticky_eCmd (f : Status) : f.clearSticky.eCmd = false := rfl

/-! ### Status.setFault -/

@[simp] theorem Status.setFault_busy (f : Status) (c : CommandFault) :
    (f.setFault c).busy = f.busy := by
  cases c <;> rfl
@[simp] theorem Status.setFault_done (f : Status) (c : CommandFault) :
    (f.setFault c).done = f.done := by
  cases c <;> rfl
@[simp] theorem Status.setFault_trunc (f : Status) (c : CommandFault) :
    (f.setFault c).trunc = f.trunc := by
  cases c <;> rfl
@[simp] theorem Status.setFault_eGeom (f : Status) (c : CommandFault) :
    (f.setFault c).eGeom = (f.eGeom || decide (c = .invalidGeometry)) := by
  cases c <;> simp [Status.setFault]
@[simp] theorem Status.setFault_eCap (f : Status) (c : CommandFault) :
    (f.setFault c).eCap = (f.eCap || decide (c = .capacity)) := by
  cases c <;> simp [Status.setFault]
@[simp] theorem Status.setFault_eCmd (f : Status) (c : CommandFault) :
    (f.setFault c).eCmd = (f.eCmd || decide (c = .illegalCommand)) := by
  cases c <;> simp [Status.setFault]

/-! ### Geometry reads WIDTH and HEIGHT alone -/

@[simp] theorem State.raise_w (s : State) (f : CommandFault) : (s.raise f).w = s.w := rfl
@[simp] theorem State.raise_h (s : State) (f : CommandFault) : (s.raise f).h = s.h := rfl
@[simp] theorem State.writeSizes_w (s : State) : s.writeSizes.w = s.w := rfl
@[simp] theorem State.writeSizes_h (s : State) : s.writeSizes.h = s.h := rfl
@[simp] theorem State.startWalk_w (s : State) : s.startWalk.w = s.w := rfl
@[simp] theorem State.startWalk_h (s : State) : s.startWalk.h = s.h := rfl

theorem State.w_lt (s : State) : s.w < 2 ^ 16 := s.width.isLt
theorem State.h_lt (s : State) : s.h < 2 ^ 16 := s.height.isLt

end Sys2Proof.Machine
end

