-- ==== Sys2Proof/Laws/Exec.lean ====
section
/-! SUPPORT. What each instruction answers, once. -/

namespace Sys2Proof.Machine

/-- The five bytes of a quad stored by the walker, and the rest of the step (R116, R117). -/
def State.afterQuad (s : State) (k : Kind) (g : GatherBlock) (after : Position) : State :=
  { s with
    ob := memWrite s.ob s.storeAddr (quadpackValue k g) 5
    status := s.status.accumulateTrunc (quadpackTruncates g)
    optr := s.optr + 5#32
    pc := after }

theorem walkQuad_eq (k : Kind) (g : GatherBlock) (after : Position) (s : State) :
    walkQuad k g after s =
      if s.storeAddr + 5 ≤ s.params.obBytes then .next (s.afterQuad k g after)
      else .fault .obOutOfSpace := by
  unfold walkQuad State.writeOb
  by_cases h : s.storeAddr + 5 ≤ s.params.obBytes
  · simp only [if_pos h, State.afterQuad]
  · simp only [if_neg h]

/-- WCLR answers a next state exactly when the output area lies in OB. -/
theorem execWclr_eq (s : State) :
    execWclr s =
      if s.outBytes.toNat ≤ s.params.obBytes then
        .next { s with
          ob := s.ob.fill (fun _ => 0#8) s.outBytes.toNat
          optr := 0#32
          pc := { phase := .luma, row := 0#16, col := 0#16 } }
      else .fault .obOutOfSpace := by
  unfold execWclr State.clearOb
  by_cases h : s.outBytes.toNat ≤ s.params.obBytes
  · simp only [if_pos h]
  · simp only [if_neg h]

/-- WLQ answers a next state exactly when its gather lies in FB and its quad in OB. -/
theorem execWlq_eq (s : State) :
    execWlq s =
      if s.lumaAddr + 8 ≤ s.params.fbBytes then
        if s.storeAddr + 5 ≤ s.params.obBytes then
          .next (s.afterQuad .luma (memRead s.fbByte s.lumaAddr 8) s.afterLuma)
        else .fault .obOutOfSpace
      else .fault .fbOutOfSpace := by
  unfold execWlq State.lumaBlock State.readFb
  by_cases h : s.lumaAddr + 8 ≤ s.params.fbBytes
  · simp only [if_pos h, walkQuad_eq]
  · simp only [if_neg h]

/-- WCQ answers a next state exactly when its two chunks lie in FB and its quad in OB. -/
theorem execWcq_eq (s : State) :
    execWcq s =
      if s.uAddr + 4 ≤ s.params.fbBytes ∧ s.vAddr + 4 ≤ s.params.fbBytes then
        if s.storeAddr + 5 ≤ s.params.obBytes then
          .next (s.afterQuad .chroma
            (memRead s.fbByte s.vAddr 4 ++ memRead s.fbByte s.uAddr 4 : GatherBlock) s.afterChroma)
        else .fault .obOutOfSpace
      else .fault .fbOutOfSpace := by
  unfold execWcq State.chromaBlock State.readFb
  by_cases hu : s.uAddr + 4 ≤ s.params.fbBytes
  · by_cases hv : s.vAddr + 4 ≤ s.params.fbBytes
    · simp only [if_pos hu, if_pos hv, if_pos (And.intro hu hv), walkQuad_eq]
    · simp only [if_pos hu, if_neg hv, if_neg (fun h : _ ∧ _ => hv h.2)]
  · simp only [if_neg hu, if_neg (fun h : _ ∧ _ => hu h.1)]

/-- The byte of OB at an address after a quad's store. -/
theorem State.afterQuad_obByte (s : State) (k : Kind) (g : GatherBlock) (p : Position) (x : Nat) :
    (s.afterQuad k g p).obByte x =
      if s.storeAddr ≤ x ∧ x < s.storeAddr + 5 then
        quadByte (quadpackValue k g) (x - s.storeAddr)
      else s.obByte x := by
  rw [State.obByte, State.afterQuad, memWrite_lookup]
  split <;> rfl

theorem State.afterQuad_fbByte (s : State) (k : Kind) (g : GatherBlock) (p : Position) :
    (s.afterQuad k g p).fbByte = s.fbByte := rfl

/-- FSIZE and CONVERT answer a next state whatever the verdict. -/
theorem onVerdict_cases (s a : State) (v : Verdict) :
    (v = .ok ∧ s.onVerdict a v = a) ∨
      (v = .invalidGeometry ∧ s.onVerdict a v = s.raise .invalidGeometry) ∨
      (v = .capacity ∧ s.onVerdict a v = s.raise .capacity) := by
  cases v <;> simp [State.onVerdict]

/-- Every host command answers a next state. -/
theorem exec_command_next (s : State) :
    exec .nop s = .next s ∧
      exec .packl s = .next (packPort .luma s) ∧
      exec .packc s = .next (packPort .chroma s) ∧
      exec .fsize s = .next (s.onVerdict s.writeSizes (geomCheck s.params s.w s.h)) ∧
      exec .clrst s = .next { s with status := s.status.clearSticky } ∧
      exec .wfin s =
        .next { s with status := s.status.finish, pc := ⟨.idle, 0#16, 0#16⟩ } :=
  ⟨rfl, rfl, rfl, rfl, rfl, rfl⟩

/-- DONE cleared, the state CONVERT's checks start from. -/
def State.convertStart (s : State) : State := { s with status := s.status.clearDone }

/-- CONVERT answers a next state whatever the verdict. -/
theorem execConvert_eq (s : State) :
    exec .convert s =
      .next (s.convertStart.onVerdict s.convertStart.writeSizes.startWalk
        (geomCheck s.params s.w s.h)) := rfl

/-- No instruction is refused. -/
theorem exec_ne_refused (i : Instr) (s : State) (r : Refusal) : exec i s ≠ .refused r := by
  cases i
  case wclr => rw [show exec .wclr s = execWclr s from rfl, execWclr_eq]; split <;> simp
  case wlq =>
    rw [show exec .wlq s = execWlq s from rfl, execWlq_eq]
    split <;> [split <;> simp; simp]
  case wcq =>
    rw [show exec .wcq s = execWcq s from rfl, execWcq_eq]
    split <;> [split <;> simp; simp]
  all_goals exact fun h => nomatch h

/-- What an instruction that answers a next state can have done. -/
inductive ExecCase (s : State) : Instr → State → Prop where
  | nop : ExecCase s .nop s
  | packl : ExecCase s .packl (packPort .luma s)
  | packc : ExecCase s .packc (packPort .chroma s)
  | fsizeOk (h : geomCheck s.params s.w s.h = .ok) : ExecCase s .fsize s.writeSizes
  | fsizeInvalid (h : geomCheck s.params s.w s.h = .invalidGeometry) :
    ExecCase s .fsize (s.raise .invalidGeometry)
  | fsizeCapacity (h : geomCheck s.params s.w s.h = .capacity) :
    ExecCase s .fsize (s.raise .capacity)
  | convertOk (h : geomCheck s.params s.w s.h = .ok) :
    ExecCase s .convert s.convertStart.writeSizes.startWalk
  | convertInvalid (h : geomCheck s.params s.w s.h = .invalidGeometry) :
    ExecCase s .convert (s.convertStart.raise .invalidGeometry)
  | convertCapacity (h : geomCheck s.params s.w s.h = .capacity) :
    ExecCase s .convert (s.convertStart.raise .capacity)
  | clrst : ExecCase s .clrst { s with status := s.status.clearSticky }
  | wclr (h : s.outBytes.toNat ≤ s.params.obBytes) :
    ExecCase s .wclr { s with
      ob := s.ob.fill (fun _ => 0#8) s.outBytes.toNat
      optr := 0#32
      pc := { phase := .luma, row := 0#16, col := 0#16 } }
  | wlq (h : s.lumaAddr + 8 ≤ s.params.fbBytes) (h' : s.storeAddr + 5 ≤ s.params.obBytes) :
    ExecCase s .wlq (s.afterQuad .luma (memRead s.fbByte s.lumaAddr 8) s.afterLuma)
  | wcq (h : s.uAddr + 4 ≤ s.params.fbBytes ∧ s.vAddr + 4 ≤ s.params.fbBytes)
    (h' : s.storeAddr + 5 ≤ s.params.obBytes) :
    ExecCase s .wcq (s.afterQuad .chroma
      (memRead s.fbByte s.vAddr 4 ++ memRead s.fbByte s.uAddr 4 : GatherBlock) s.afterChroma)
  | wfin : ExecCase s .wfin { s with status := s.status.finish, pc := ⟨.idle, 0#16, 0#16⟩ }

/-- The inversion of `exec`. -/
theorem exec_cases {s t : State} {i : Instr} (h : exec i s = .next t) : ExecCase s i t := by
  cases i with
  | nop => cases h; exact .nop
  | packl => cases h; exact .packl
  | packc => cases h; exact .packc
  | fsize =>
    cases h
    rcases onVerdict_cases s s.writeSizes (geomCheck s.params s.w s.h) with
      ⟨hv, e⟩ | ⟨hv, e⟩ | ⟨hv, e⟩ <;> rw [e]
    · exact .fsizeOk hv
    · exact .fsizeInvalid hv
    · exact .fsizeCapacity hv
  | convert =>
    rw [execConvert_eq] at h
    cases h
    rcases onVerdict_cases s.convertStart s.convertStart.writeSizes.startWalk
      (geomCheck s.params s.w s.h) with ⟨hv, e⟩ | ⟨hv, e⟩ | ⟨hv, e⟩ <;> rw [e]
    · exact .convertOk hv
    · exact .convertInvalid hv
    · exact .convertCapacity hv
  | clrst => cases h; exact .clrst
  | wclr =>
    rw [show exec .wclr s = execWclr s from rfl, execWclr_eq] at h
    split at h <;> cases h
    exact .wclr ‹_›
  | wlq =>
    rw [show exec .wlq s = execWlq s from rfl, execWlq_eq] at h
    split at h
    · split at h <;> cases h
      exact .wlq ‹_› ‹_›
    · cases h
  | wcq =>
    rw [show exec .wcq s = execWcq s from rfl, execWcq_eq] at h
    split at h
    · split at h <;> cases h
      exact .wcq ‹_› ‹_›
    · cases h
  | wfin => cases h; exact .wfin

end Sys2Proof.Machine
end

