-- ==== Sys2Proof/Laws/Flags.lean ====
section
/-! SUPPORT. STATUS bit by bit, 10_state.md R16. -/

namespace Sys2Proof.Machine

theorem bitAt_getLsbD (b : Bool) (n k : Nat) (hn : n < 32) :
    (bitAt b n).getLsbD k = (decide (k = n) && b) := by
  simp only [bitAt, BitVec.getLsbD_shiftLeft, BitVec.zeroExtend, BitVec.getLsbD_setWidth,
    BitVec.getLsbD_ofBool]
  by_cases h : k = n
  · subst h
    simp [hn]
  · by_cases h2 : k < n
    · simp [h, h2]
    · have : k - n ≠ 0 := by omega
      simp [h, this]

/-- The bits of STATUS as the host reads it. -/
theorem Status.toWord_getLsbD (f : Status) (k : Nat) :
    f.toWord.getLsbD k =
      (decide (k = 0) && f.busy || decide (k = 1) && f.done || decide (k = 2) && f.trunc ||
        decide (k = 4) && f.eGeom || decide (k = 5) && f.eCap || decide (k = 6) && f.eCmd) := by
  simp [Status.toWord, bitAt_getLsbD]

end Sys2Proof.Machine
end

