-- ==== Sys2Proof/Laws/Geometry.lean ====
section
/-! SUPPORT. The geometry check and the sizes of an accepted frame (41_frame_codec.md R110 to
R112), and where the walker's next position lies (R116, R117). -/

namespace Sys2Proof.Machine

theorem geomCheck_ok {p : Params} {w h : Nat} :
    geomCheck p w h = .ok ↔ Conforming w h ∧ Fits p w h := by
  unfold geomCheck Conforming Fits
  split_ifs <;> simp <;> omega

theorem geomCheck_invalidGeometry {p : Params} {w h : Nat} :
    geomCheck p w h = .invalidGeometry ↔ ¬Conforming w h := by
  unfold geomCheck Conforming
  split_ifs <;> simp <;> omega

theorem geomCheck_capacity {p : Params} {w h : Nat} :
    geomCheck p w h = .capacity ↔ Conforming w h ∧ ¬Fits p w h := by
  unfold geomCheck Conforming Fits
  split_ifs <;> simp <;> omega

/-- An accepted frame of `4a` by `2b` samples: every size in the unit `a * b`. -/
theorem accepted_sizes {p : Params} {w h : Nat} (hp : p.wf) (hg : geomCheck p w h = .ok) :
    ∃ a b, w = 4 * a ∧ h = 2 * b ∧ w * h = 8 * (a * b) ∧ 0 < a ∧ 0 < b ∧
      lumaSize w h = 10 * (a * b) ∧ chromaSize w h = 5 * (a * b) ∧ outSize w h = 15 * (a * b) ∧
      lumaQuads w h = 2 * (a * b) ∧ chromaQuads w h = a * b ∧
      24 * (a * b) ≤ p.fbBytes ∧ 15 * (a * b) ≤ p.obBytes ∧ 24 * (a * b) ≤ 2 ^ 32 ∧
      uOff w h = 16 * (a * b) ∧ vOff w h = 20 * (a * b) ∧ 3 * w * h = 24 * (a * b) := by
  obtain ⟨⟨h1, h2, h3, h4⟩, hf1, hf2⟩ := geomCheck_ok.1 hg
  obtain ⟨a, rfl⟩ : ∃ a, w = 4 * a := ⟨w / 4, by omega⟩
  obtain ⟨b, rfl⟩ : ∃ b, h = 2 * b := ⟨h / 2, by omega⟩
  have e : 4 * a * (2 * b) = 8 * (a * b) := by ring
  have e3 : 3 * (4 * a) * (2 * b) = 24 * (a * b) := by ring
  have e15 : 15 * (4 * a) * (2 * b) = 120 * (a * b) := by ring
  obtain ⟨hp1, hp2, -⟩ := hp
  refine ⟨a, b, rfl, rfl, e, by omega, by omega, ?_⟩
  rw [e3] at hf1
  rw [e15] at hf2
  simp only [outSize, lumaSize, chromaSize, lumaQuads, chromaQuads, npix, uOff, vOff, e]
  omega

/-- The size registers hold the exact sizes after they are written for an accepted frame, R112. -/
theorem writeSizes_toNat {s : State} (hp : s.params.wf) (ha : s.Accepted) :
    s.writeSizes.lumaBytes.toNat = lumaSize s.w s.h ∧
      s.writeSizes.chromaBytes.toNat = chromaSize s.w s.h ∧
      s.writeSizes.outBytes.toNat = outSize s.w s.h := by
  obtain ⟨a, b, -, -, -, ha0, -, hl, hc, ho, -, -, -, -, h32, -⟩ := accepted_sizes hp ha
  simp only [State.writeSizes_lumaBytes, State.writeSizes_chromaBytes, State.writeSizes_outBytes,
    BitVec.toNat_ofNat]
  omega

/-- Where WLQ leaves the walker: four samples on in the luma grid, or at the chroma grid's start
after the last luma quad (R116). -/
theorem luma_next {s : State} (hp : s.params.wf) (ha : s.Accepted) (h1 : s.pc.col.toNat % 4 = 0)
    (h2 : s.pc.row.toNat < s.h) (h3 : s.pc.col.toNat < s.w)
    (h4 : s.optr.toNat = 5 * (s.lumaIndex / 4)) :
    s.lumaIndex % 4 = 0 ∧ s.lumaIndex / 4 < lumaQuads s.w s.h ∧
      (s.optr + 5#32).toNat = 5 * (s.lumaIndex / 4 + 1) ∧
      ((∃ r c, s.afterLuma = ⟨.luma, r, c⟩ ∧ c.toNat % 4 = 0 ∧ r.toNat < s.h ∧ c.toNat < s.w ∧
          r.toNat * s.w + c.toNat = s.lumaIndex + 4) ∨
        (s.afterLuma = ⟨.chroma, 0#16, 0#16⟩ ∧ s.lumaIndex / 4 + 1 = lumaQuads s.w s.h)) := by
  obtain ⟨a, b, ea, eb, e1, ha0, hb0, hl, hc, ho, hlq, hcq, hf, hob, h32, -⟩ :=
    accepted_sizes hp ha
  have hw := s.w_lt
  have hh := s.h_lt
  have e : s.lumaIndex = s.pc.row.toNat * s.w + s.pc.col.toNat := rfl
  have em : s.pc.row.toNat * s.w = 4 * (s.pc.row.toNat * a) := by rw [ea]; ring
  have hlt : s.pc.row.toNat * a + a ≤ 2 * (a * b) := by
    calc s.pc.row.toNat * a + a = (s.pc.row.toNat + 1) * a := by ring
      _ ≤ s.h * a := Nat.mul_le_mul_right _ h2
      _ = 2 * (a * b) := by rw [eb]; ring
  refine ⟨by omega, by rw [hlq]; omega, ?_, ?_⟩
  · rw [BitVec.toNat_add, show (5#32).toNat = 5 from rfl]
    omega
  · unfold State.afterLuma
    split
    · refine .inl ⟨_, _, rfl, ?_, h2, ?_, ?_⟩
      all_goals rw [BitVec.toNat_add, show (4#16).toNat = 4 from rfl]; omega
    · split
      · next h h' =>
        have hr : (s.pc.row + 1#16).toNat = s.pc.row.toNat + 1 := by
          rw [BitVec.toNat_add, show (1#16).toNat = 1 from rfl]
          omega
        refine .inl ⟨_, _, rfl, rfl, by rw [hr]; exact h', by simp; omega, ?_⟩
        rw [hr, e, Nat.add_mul]
        simp
        omega
      · refine .inr ⟨rfl, ?_⟩
        have hr : s.pc.row.toNat + 1 = s.h := by omega
        have h5 : s.pc.row.toNat * a + a = 2 * (a * b) := by
          calc s.pc.row.toNat * a + a = (s.pc.row.toNat + 1) * a := by ring
            _ = 2 * (a * b) := by rw [hr, eb]; ring
        rw [hlq, e]
        omega

/-- Where WCQ leaves the walker: two samples on in the chroma grid, or at FIN after the last
chroma quad (R117). -/
theorem chroma_next {s : State} (hp : s.params.wf) (ha : s.Accepted)
    (h1 : s.pc.col.toNat % 2 = 0) (h2 : s.pc.row.toNat < s.h / 2) (h3 : s.pc.col.toNat < s.w / 2)
    (h4 : s.optr.toNat = lumaSize s.w s.h + 5 * (s.chromaIndex / 2)) :
    s.chromaIndex % 2 = 0 ∧ s.chromaIndex / 2 < chromaQuads s.w s.h ∧
      (s.optr + 5#32).toNat = lumaSize s.w s.h + 5 * (s.chromaIndex / 2 + 1) ∧
      ((∃ r c, s.afterChroma = ⟨.chroma, r, c⟩ ∧ c.toNat % 2 = 0 ∧ r.toNat < s.h / 2 ∧
          c.toNat < s.w / 2 ∧ r.toNat * (s.w / 2) + c.toNat = s.chromaIndex + 2) ∨
        (s.afterChroma = ⟨.fin, 0#16, 0#16⟩ ∧
          s.chromaIndex / 2 + 1 = chromaQuads s.w s.h)) := by
  obtain ⟨a, b, ea, eb, e1, ha0, hb0, hl, hc, ho, hlq, hcq, hf, hob, h32, -⟩ :=
    accepted_sizes hp ha
  have hw := s.w_lt
  have hh := s.h_lt
  have e : s.chromaIndex = s.pc.row.toNat * (s.w / 2) + s.pc.col.toNat := rfl
  have ew : s.w / 2 = 2 * a := by omega
  have eh : s.h / 2 = b := by omega
  have em : s.pc.row.toNat * (s.w / 2) = 2 * (s.pc.row.toNat * a) := by rw [ew]; ring
  have hlt : s.pc.row.toNat * a + a ≤ a * b := by
    calc s.pc.row.toNat * a + a = (s.pc.row.toNat + 1) * a := by ring
      _ ≤ b * a := Nat.mul_le_mul_right _ (by omega)
      _ = a * b := by ring
  refine ⟨by omega, by rw [hcq]; omega, ?_, ?_⟩
  · rw [BitVec.toNat_add, show (5#32).toNat = 5 from rfl]
    omega
  · unfold State.afterChroma
    split
    · refine .inl ⟨_, _, rfl, ?_, h2, ?_, ?_⟩
      all_goals rw [BitVec.toNat_add, show (2#16).toNat = 2 from rfl]; omega
    · split
      · next h h' =>
        have hr : (s.pc.row + 1#16).toNat = s.pc.row.toNat + 1 := by
          rw [BitVec.toNat_add, show (1#16).toNat = 1 from rfl]
          omega
        refine .inl ⟨_, _, rfl, rfl, by rw [hr]; exact h', by simp; omega, ?_⟩
        rw [hr, e, Nat.add_mul]
        simp
        omega
      · refine .inr ⟨rfl, ?_⟩
        have hr : s.pc.row.toNat + 1 = b := by omega
        have h5 : s.pc.row.toNat * a + a = a * b := by
          calc s.pc.row.toNat * a + a = (s.pc.row.toNat + 1) * a := by ring
            _ = a * b := by rw [hr]; ring
        rw [hcq, e]
        omega

end Sys2Proof.Machine
end

