-- ==== Sys2Proof/Laws/Step.lean ====
section
/-! SUPPORT. Everything a step can do, once: the inversion of `step` that invariants cite. -/

namespace Sys2Proof.Machine

@[simp] theorem State.afterTurn_turns (s : State) : s.afterTurn.turns = s.turns.tail := rfl
@[simp] theorem State.afterTurn_params (s : State) : s.afterTurn.params = s.params := rfl
@[simp] theorem State.afterTurn_width (s : State) : s.afterTurn.width = s.width := rfl
@[simp] theorem State.afterTurn_height (s : State) : s.afterTurn.height = s.height := rfl
@[simp] theorem State.afterTurn_lumaBytes (s : State) : s.afterTurn.lumaBytes = s.lumaBytes := rfl
@[simp] theorem State.afterTurn_chromaBytes (s : State) :
    s.afterTurn.chromaBytes = s.chromaBytes := rfl
@[simp] theorem State.afterTurn_outBytes (s : State) : s.afterTurn.outBytes = s.outBytes := rfl
@[simp] theorem State.afterTurn_status (s : State) : s.afterTurn.status = s.status := rfl
@[simp] theorem State.afterTurn_qin0 (s : State) : s.afterTurn.qin0 = s.qin0 := rfl
@[simp] theorem State.afterTurn_qin1 (s : State) : s.afterTurn.qin1 = s.qin1 := rfl
@[simp] theorem State.afterTurn_qout0 (s : State) : s.afterTurn.qout0 = s.qout0 := rfl
@[simp] theorem State.afterTurn_qout1 (s : State) : s.afterTurn.qout1 = s.qout1 := rfl
@[simp] theorem State.afterTurn_pc (s : State) : s.afterTurn.pc = s.pc := rfl
@[simp] theorem State.afterTurn_optr (s : State) : s.afterTurn.optr = s.optr := rfl
@[simp] theorem State.afterTurn_fb (s : State) : s.afterTurn.fb = s.fb := rfl
@[simp] theorem State.afterTurn_ob (s : State) : s.afterTurn.ob = s.ob := rfl
@[simp] theorem State.afterTurn_replies (s : State) : s.afterTurn.replies = s.replies := rfl
@[simp] theorem State.afterTurn_draws (s : State) : s.afterTurn.draws = s.draws := rfl
@[simp] theorem State.afterTurn_w (s : State) : s.afterTurn.w = s.w := rfl
@[simp] theorem State.afterTurn_h (s : State) : s.afterTurn.h = s.h := rfl
@[simp] theorem State.afterTurn_fbByte (s : State) : s.afterTurn.fbByte = s.fbByte := rfl
@[simp] theorem State.afterTurn_obByte (s : State) : s.afterTurn.obByte = s.obByte := rfl

theorem State.afterTurn_of_nil {s : State} (h : s.turns = []) : s.afterTurn = s := by
  cases s
  simp_all [State.afterTurn]

/-- The fetch of a walker's turn. -/
theorem fetch_of_walkerMoves {s : State} (h : s.walkerMoves = true) :
    fetch s = fetchWalker s.afterTurn := by
  unfold State.walkerMoves at h
  split at h
  · next h0 =>
    unfold fetch
    rw [h0, State.afterTurn_of_nil h0]
  · next ts h0 =>
    unfold fetch State.afterTurn
    rw [h0]
    rfl
  · cases h

/-- The fetch of a host's turn. -/
theorem fetch_of_hostMoves {s : State} {a : HostAccess} (h : s.hostMoves a) :
    fetch s = fetchHost a s.afterTurn := by
  obtain ⟨ts, h⟩ := h
  unfold fetch State.afterTurn
  rw [h]
  rfl

/-- Each step is the walker's turn or one host access. -/
theorem moves_cases (s : State) : s.walkerMoves = true ∨ ∃ a, s.hostMoves a := by
  unfold State.walkerMoves State.hostMoves
  rcases s.turns with _ | ⟨_ | _, ts⟩
  · exact .inl rfl
  · exact .inr ⟨_, _, rfl⟩
  · exact .inl rfl

/-- A step in which the host moves is not the walker's. -/
theorem State.hostMoves.not_walkerMoves {s : State} {a : HostAccess} (h : s.hostMoves a) :
    s.walkerMoves = false := by
  obtain ⟨ts, h⟩ := h
  rw [State.walkerMoves, h]

theorem State.hostMoves.unique {s : State} {a b : HostAccess} (h : s.hostMoves a)
    (h' : s.hostMoves b) : a = b := by
  obtain ⟨ts, h⟩ := h
  obtain ⟨ts', h'⟩ := h'
  rw [h] at h'
  cases h'
  rfl

/-- A step that runs an instruction is that instruction's effect after the turn is taken. -/
theorem step_of_runs {s : State} {i : Instr} (h : s.runs i) : step s = exec i s.afterTurn := by
  rcases h with ⟨hb, c, hm, hd⟩ | ⟨hm, hd⟩
  · have h0 : regSlot 0 = RegSlot.cmd := rfl
    simp only [step, fetch_of_hostMoves hm, fetchHost, fetchRegWrite, fetchCommand,
      State.afterTurn_status, hb, h0, hd, if_true, Bool.false_eq_true, if_false]
  · simp only [step, fetch_of_walkerMoves hm, fetchWalker, State.afterTurn_pc, hd]

/-- What a step that answers a next state can have done. -/
inductive StepCase (s : State) : State → Prop where
  | ran {i : Instr} {t : State} (h : s.runs i) (hx : exec i s.afterTurn = .next t) : StepCase s t
  | walkerIdle (hm : s.walkerMoves = true) (hp : s.pc.phase = .idle) : StepCase s s.afterTurn
  | regRead (n : Fin 16) (hm : s.hostMoves (.regRead n)) :
    StepCase s (s.afterTurn.reply (.word (s.readReg n)))
  | regWriteBusy (n : Fin 16) (v : Word) (hm : s.hostMoves (.regWrite n v))
    (hb : s.status.busy = true) : StepCase s s.afterTurn
  | regWrite (n : Fin 16) (v : Word) (hm : s.hostMoves (.regWrite n v))
    (hb : s.status.busy = false) (hn : regSlot n ≠ .cmd) :
    StepCase s (s.afterTurn.writeSlot v (regSlot n))
  | illegal (n : Fin 16) (c : Word) (e : DecodeError) (hm : s.hostMoves (.regWrite n c))
    (hb : s.status.busy = false) (hn : regSlot n = .cmd) (hd : decode (.cmdw c) = .error e) :
    StepCase s (s.afterTurn.raise .illegalCommand)
  | fbRead (a : Nat) (hm : s.hostMoves (.fbRead a)) (ha : a < s.params.fbBytes) :
    StepCase s (s.afterTurn.hostReadFb a)
  | fbWrite (a : Nat) (b : Byte) (hm : s.hostMoves (.fbWrite a b)) (ha : a < s.params.fbBytes) :
    StepCase s (s.afterTurn.hostWriteFb a b)
  | obRead (a : Nat) (hm : s.hostMoves (.obRead a)) (ha : a < s.params.obBytes) :
    StepCase s (s.afterTurn.hostReadOb a)
  | obWrite (a : Nat) (b : Byte) (hm : s.hostMoves (.obWrite a b)) (ha : a < s.params.obBytes) :
    StepCase s (s.afterTurn.hostWriteOb a b)
  | reset (hm : s.hostMoves .assertReset) : StepCase s s.afterTurn.assertReset

theorem regSlot_eq_cmd {n : Fin 16} : regSlot n = .cmd ↔ n = 0 := by
  revert n
  decide

/-- The inversion of `step`. -/
theorem step_cases {s t : State} (h : step s = .next t) : StepCase s t := by
  rcases moves_cases s with hm | ⟨a, hm⟩
  · cases hd : decode (.walk s.pc.phase.code) with
    | ok i =>
      have hr : s.runs i := .inr ⟨hm, hd⟩
      exact .ran hr (step_of_runs hr ▸ h)
    | error e =>
      have hp : s.pc.phase = .idle := by
        rw [decode_phase_code] at hd
        cases hq : s.pc.phase <;> simp_all
      simp only [step, fetch_of_walkerMoves hm, fetchWalker, State.afterTurn_pc, hd] at h
      cases h
      exact .walkerIdle hm hp
  · cases a with
    | regRead n =>
      simp only [step, fetch_of_hostMoves hm, fetchHost] at h
      cases h
      exact .regRead n hm
    | regWrite n v =>
      by_cases hb : s.status.busy = true
      · simp only [step, fetch_of_hostMoves hm, fetchHost, fetchRegWrite, State.afterTurn_status,
          hb, if_true] at h
        cases h
        exact .regWriteBusy n v hm hb
      · have hb : s.status.busy = false := by simpa using hb
        by_cases hn : regSlot n = .cmd
        · cases hd : decode (.cmdw v) with
          | ok i =>
            have hr : s.runs i := .inl ⟨hb, v, regSlot_eq_cmd.1 hn ▸ hm, hd⟩
            exact .ran hr (step_of_runs hr ▸ h)
          | error e =>
            simp only [step, fetch_of_hostMoves hm, fetchHost, fetchRegWrite, fetchCommand,
              State.afterTurn_status, hb, hn, hd, if_true, Bool.false_eq_true, if_false] at h
            cases h
            exact .illegal n v e hm hb hn hd
        · simp only [step, fetch_of_hostMoves hm, fetchHost, fetchRegWrite, State.afterTurn_status,
            hb, hn, Bool.false_eq_true, if_false] at h
          cases h
          exact .regWrite n v hm hb hn
    | fbRead a =>
      by_cases ha : a < s.afterTurn.params.fbBytes
      · simp only [step, fetch_of_hostMoves hm, fetchHost, if_pos ha] at h
        cases h
        exact .fbRead a hm ha
      · simp only [step, fetch_of_hostMoves hm, fetchHost, if_neg ha] at h
        cases h
    | fbWrite a b =>
      by_cases ha : a < s.afterTurn.params.fbBytes
      · simp only [step, fetch_of_hostMoves hm, fetchHost, if_pos ha] at h
        cases h
        exact .fbWrite a b hm ha
      · simp only [step, fetch_of_hostMoves hm, fetchHost, if_neg ha] at h
        cases h
    | obRead a =>
      by_cases ha : a < s.afterTurn.params.obBytes
      · simp only [step, fetch_of_hostMoves hm, fetchHost, if_pos ha] at h
        cases h
        exact .obRead a hm ha
      · simp only [step, fetch_of_hostMoves hm, fetchHost, if_neg ha] at h
        cases h
    | obWrite a b =>
      by_cases ha : a < s.afterTurn.params.obBytes
      · simp only [step, fetch_of_hostMoves hm, fetchHost, if_pos ha] at h
        cases h
        exact .obWrite a b hm ha
      · simp only [step, fetch_of_hostMoves hm, fetchHost, if_neg ha] at h
        cases h
    | assertReset =>
      simp only [step, fetch_of_hostMoves hm, fetchHost] at h
      cases h
      exact .reset hm

/-- A command runs only while idle, a micro-operation only in its phase. -/
theorem State.runs.cases {s : State} {i : Instr} (h : s.runs i) :
    (s.status.busy = false ∧
        (i = .nop ∨ i = .packl ∨ i = .packc ∨ i = .fsize ∨ i = .convert ∨ i = .clrst)) ∨
      (s.walkerMoves = true ∧
        ((s.pc.phase = .clear ∧ i = .wclr) ∨ (s.pc.phase = .luma ∧ i = .wlq) ∨
          (s.pc.phase = .chroma ∧ i = .wcq) ∨ (s.pc.phase = .fin ∧ i = .wfin))) := by
  rcases h with ⟨hb, c, -, hd⟩ | ⟨hm, hd⟩
  · exact .inl ⟨hb, decodeCommand_ok hd⟩
  · refine .inr ⟨hm, ?_⟩
    rw [decode_phase_code] at hd
    cases hp : s.pc.phase <;> simp_all

/-- A command that runs is a command run from CMD. -/
theorem State.runs.command {s : State} {i : Instr} (h : s.runs i)
    (hi : i = .nop ∨ i = .packl ∨ i = .packc ∨ i = .fsize ∨ i = .convert ∨ i = .clrst) :
    s.commandRuns i := by
  rcases h with h | ⟨-, hd⟩
  · exact h
  · rw [decode_phase_code] at hd
    cases hp : s.pc.phase <;> rw [hp] at hd <;> cases hd <;> simp at hi

/-- A micro-operation that runs is run by the walker. -/
theorem State.runs.microOp {s : State} {i : Instr} (h : s.runs i)
    (hi : i = .wclr ∨ i = .wlq ∨ i = .wcq ∨ i = .wfin) : s.microOpRuns i := by
  rcases h with ⟨-, c, -, hd⟩ | h
  · have := decodeCommand_ok hd
    rcases hi with rfl | rfl | rfl | rfl <;> simp at this
  · exact h

/-- A host write to a register does nothing while BUSY. -/
theorem step_regWrite_busy {s : State} {n : Fin 16} {v : Word} (hm : s.hostMoves (.regWrite n v))
    (hb : s.status.busy = true) : step s = .next s.afterTurn := by
  simp only [step, fetch_of_hostMoves hm, fetchHost, fetchRegWrite, State.afterTurn_status, hb,
    if_true]

/-- A host write to a register that is not the command port, while idle. -/
theorem step_regWrite_idle {s : State} {n : Fin 16} {v : Word} (hm : s.hostMoves (.regWrite n v))
    (hb : s.status.busy = false) (hn : regSlot n ≠ .cmd) :
    step s = .next (s.afterTurn.writeSlot v (regSlot n)) := by
  simp only [step, fetch_of_hostMoves hm, fetchHost, fetchRegWrite, State.afterTurn_status, hb, hn,
    Bool.false_eq_true, if_false]

/-- A host write to CMD of a word that is no command, while idle. -/
theorem step_illegal {s : State} {c : Word} {e : DecodeError}
    (hm : s.hostMoves (.regWrite 0 c)) (hb : s.status.busy = false)
    (hd : decode (.cmdw c) = .error e) : step s = .next (s.afterTurn.raise .illegalCommand) := by
  have h0 : regSlot 0 = RegSlot.cmd := rfl
  simp only [step, fetch_of_hostMoves hm, fetchHost, fetchRegWrite, fetchCommand,
    State.afterTurn_status, hb, h0, hd, if_true, Bool.false_eq_true, if_false]

theorem hostWriteFb_cases (s : State) (a : Nat) (b : Byte) :
    (s.status.busy = true ∧ s.hostWriteFb a b = s) ∨
      (s.status.busy = false ∧ s.hostWriteFb a b = { s with fb := s.fb.write a b }) := by
  unfold State.hostWriteFb
  cases s.status.busy <;> simp

theorem hostWriteOb_cases (s : State) (a : Nat) (b : Byte) :
    (s.status.busy = true ∧ s.hostWriteOb a b = s) ∨
      (s.status.busy = false ∧ s.hostWriteOb a b = { s with ob := s.ob.write a b }) := by
  unfold State.hostWriteOb
  cases s.status.busy <;> simp

theorem hostReadFb_cases (s : State) (a : Nat) :
    (s.status.busy = true ∧ s.hostReadFb a =
        { s with replies := .byte (Config.busyRead s.draws) :: s.replies, draws := s.draws + 1 }) ∨
      (s.status.busy = false ∧
        s.hostReadFb a = { s with replies := .byte (s.fbByte a) :: s.replies }) := by
  unfold State.hostReadFb
  cases s.status.busy <;> simp [State.reply]

theorem hostReadOb_cases (s : State) (a : Nat) :
    (s.status.busy = true ∧ s.hostReadOb a =
        { s with replies := .byte (Config.busyRead s.draws) :: s.replies, draws := s.draws + 1 }) ∨
      (s.status.busy = false ∧
        s.hostReadOb a = { s with replies := .byte (s.obByte a) :: s.replies }) := by
  unfold State.hostReadOb
  cases s.status.busy <;> simp [State.reply]

/-- A step that runs a CMD word the host writes while idle, by its decoding. -/
theorem step_command {s : State} {c : Word} {i : Instr} (hm : s.hostMoves (.regWrite 0 c))
    (hb : s.status.busy = false) (hd : decode (.cmdw c) = .ok i) :
    step s = exec i s.afterTurn := step_of_runs (.inl ⟨hb, c, hm, hd⟩)

end Sys2Proof.Machine
end

