-- ==== Sys2Proof/Laws/HostProgram.lean ====
section
/-! SUPPORT. Byte accesses one after another: the turns of a transfer, and the step each takes
(20_memory.md R51, 42_host_control.md R145). -/

namespace Sys2Proof.Machine

/-- A run of one step more, when the first goes on. -/
theorem run_succ {s t : State} (h : step s = .next t) (k : Nat) :
    Sys2Proof.core.run (k + 1) s = Sys2Proof.core.run k t := by
  simp only [Host.Core.run]
  rw [show Sys2Proof.core.step s = .next t from h]

@[simp] theorem turnsLoad_length (S : Space) (a : Nat) (bs : List Byte) :
    (turnsLoad S a bs).length = bs.length := by
  induction bs generalizing a with
  | nil => rfl
  | cons b bs ih => simp [turnsLoad, ih]

@[simp] theorem turnsDump_length (S : Space) (a n : Nat) : (turnsDump S a n).length = n := by
  induction n generalizing a with
  | zero => rfl
  | succ n ih => simp [turnsDump, ih]

theorem turnsLoad_getElem? (S : Space) (a : Nat) (bs : List Byte) (k : Nat) :
    (turnsLoad S a bs)[k]? = bs[k]?.map (fun b => turnWrite S (a + k) b) := by
  induction bs generalizing a k with
  | nil => rfl
  | cons b bs ih =>
    cases k with
    | zero => rfl
    | succ k => simp [turnsLoad, ih, Nat.add_assoc, Nat.add_comm 1]

theorem turnsDump_getElem? (S : Space) (a n k : Nat) (h : k < n) :
    (turnsDump S a n)[k]? = some (turnRead S (a + k)) := by
  induction n generalizing a k with
  | zero => omega
  | succ n ih =>
    cases k with
    | zero => rfl
    | succ k => simp [turnsDump, ih (a + 1) k (by omega), Nat.add_assoc, Nat.add_comm 1]

@[simp] theorem wideBytes_length {n : Nat} (v : BitVec (8 * n)) : (wideBytes v).length = n := by
  simp [wideBytes]

theorem wideBytes_getElem? {n : Nat} (v : BitVec (8 * n)) {k : Nat} (h : k < n) :
    (wideBytes v)[k]? = some (v.extractLsb' (8 * k) 8) := by
  simp [wideBytes, h]

/-- One byte write while BUSY: the turn is taken and nothing changes. -/
theorem step_turnWrite_busy {s : State} {S : Space} {a : Nat} {b : Byte} {ts : List Turn}
    (ht : s.turns = turnWrite S a b :: ts) (ha : a < s.capacity S) (hb : s.status.busy = true) :
    step s = .next { s with turns := ts } := by
  cases S <;> simp only [State.capacity] at ha <;>
    simp [step, fetch, ht, turnWrite, fetchHost, ha, State.hostWriteFb, State.hostWriteOb, hb]

/-- One byte write of FB while idle. -/
theorem step_fbWrite_idle {s : State} {a : Nat} {b : Byte} {ts : List Turn}
    (ht : s.turns = turnWrite .fb a b :: ts) (ha : a < s.params.fbBytes)
    (hb : s.status.busy = false) :
    step s = .next { s with turns := ts, fb := s.fb.write a b } := by
  simp [step, fetch, ht, turnWrite, fetchHost, ha, State.hostWriteFb, hb]

/-- One byte write of OB while idle. -/
theorem step_obWrite_idle {s : State} {a : Nat} {b : Byte} {ts : List Turn}
    (ht : s.turns = turnWrite .ob a b :: ts) (ha : a < s.params.obBytes)
    (hb : s.status.busy = false) :
    step s = .next { s with turns := ts, ob := s.ob.write a b } := by
  simp [step, fetch, ht, turnWrite, fetchHost, ha, State.hostWriteOb, hb]

/-- One byte read: some byte is returned, the byte of the space while idle. -/
theorem step_turnRead {s : State} {S : Space} {a : Nat} {ts : List Turn}
    (ht : s.turns = turnRead S a :: ts) (ha : a < s.capacity S) :
    ∃ b d, step s = .next { s with turns := ts, replies := .byte b :: s.replies, draws := d } ∧
      (s.status.busy = false → b = s.spaceByte S a ∧ d = s.draws) := by
  cases S <;> simp only [State.capacity] at ha <;> cases hb : s.status.busy
  · exact ⟨s.fbByte a, s.draws, by
      simp [step, fetch, ht, turnRead, fetchHost, ha, State.hostReadFb, hb, State.reply]; rfl,
      fun _ => ⟨rfl, rfl⟩⟩
  · exact ⟨Config.busyRead s.draws, s.draws + 1, by
      simp [step, fetch, ht, turnRead, fetchHost, ha, State.hostReadFb, hb, State.reply],
      fun h => nomatch h⟩
  · exact ⟨s.obByte a, s.draws, by
      simp [step, fetch, ht, turnRead, fetchHost, ha, State.hostReadOb, hb, State.reply]; rfl,
      fun _ => ⟨rfl, rfl⟩⟩
  · exact ⟨Config.busyRead s.draws, s.draws + 1, by
      simp [step, fetch, ht, turnRead, fetchHost, ha, State.hostReadOb, hb, State.reply],
      fun h => nomatch h⟩

end Sys2Proof.Machine
end

