-- ==== Sys2Proof/Laws/Output.lean ====
section
/-! SUPPORT. The quads in OB and the samples they come from (41_frame_codec.md R116, R117, R122). -/

namespace Sys2Proof.Machine

/-- The quad just stored reads back. -/
theorem State.afterQuad_obQuad_self (s : State) (k : Kind) (g : GatherBlock) (p : Position) :
    (s.afterQuad k g p).obQuad s.storeAddr = quadpackValue k g := by
  refine BitVec.eq_of_getLsbD_eq fun i hi => ?_
  rw [State.obQuad, memRead_getLsbD, State.afterQuad_obByte, if_pos (by omega), quadByte,
    BitVec.getLsbD_extractLsb']
  simp [show i < 8 * 5 by omega, show i % 8 < 8 by omega, show 8 * (i / 8) + i % 8 = i by omega]

/-- A quad below the one just stored is untouched. -/
theorem State.afterQuad_obQuad_below (s : State) (k : Kind) (g : GatherBlock) (p : Position)
    {x : Nat} (h : x + 5 ≤ s.storeAddr) : (s.afterQuad k g p).obQuad x = s.obQuad x := by
  refine memRead_congr fun y h1 h2 => ?_
  rw [State.afterQuad_obByte, if_neg (by omega)]

/-- What the output must be depends on FB and the geometry alone. -/
theorem quadOf_congr {s t : State} (h1 : s.fb = t.fb) (h2 : s.width = t.width)
    (h3 : s.height = t.height) :
    (∀ i, s.lumaQuadOf i = t.lumaQuadOf i) ∧ (∀ i, s.chromaQuadOf i = t.chromaQuadOf i) := by
  have := State.fbByte_congr h1
  constructor <;> intro i
  · simp only [State.lumaQuadOf, State.ySample, State.storedSample, this]
  · simp only [State.chromaQuadOf, State.uSample, State.vSample, State.storedSample, State.w,
      State.h, this, h2, h3]

/-- The value WLQ stores is the quad R122 gives for its position. -/
theorem lumaValue_eq (s : State) (h : s.lumaIndex % 4 = 0) :
    quadpackValue .luma (memRead s.fbByte s.lumaAddr 8) = s.lumaQuadOf (s.lumaIndex / 4) := by
  have e : 4 * (s.lumaIndex / 4) = s.lumaIndex := by omega
  rw [quadpackValue_luma, gather_lumaRead, State.lumaQuadOf, e]
  rfl

/-- The value WCQ stores is the quad R122 gives for its position. -/
theorem chromaValue_eq (s : State) (h : s.chromaIndex % 2 = 0) :
    quadpackValue .chroma
        (memRead s.fbByte s.vAddr 4 ++ memRead s.fbByte s.uAddr 4 : GatherBlock) =
      s.chromaQuadOf (s.chromaIndex / 2) := by
  have e : 2 * (s.chromaIndex / 2) = s.chromaIndex := by omega
  rw [quadpackValue_chroma, gather_chromaRead, State.chromaQuadOf, e]
  rfl

end Sys2Proof.Machine
end

