-- ==== Sys2Proof/Tests/Slice0.lean ====
section
/-! SUPPORT. The package's own tests: expected values are those of 95_test_vectors.md and of the
encodings of 30_encoding.md, written out; then a witness for the hypotheses of each statement. -/

namespace Sys2Proof.Tests

open Sys2Proof.Machine

/-! ### Helpers -/

/-- The next state of an outcome, if it is one. -/
def nextOf (o : Host.Outcome State Fault Refusal) : Option State :=
  match o with
  | .next t => some t
  | _ => none

/-- The state after one step. -/
def after (s : State) : State := (nextOf (step s)).getD s

/-- The small instance after reset. -/
def small : State := State.resetWith Config.smallParams

/-- `s` with the host about to make an access. -/
def hostTurn (a : HostAccess) (s : State) : State := { s with turns := [.host a] }

/-- The bytes of program P3's frame: Y, then U, then V. -/
def frameP3 : List Byte :=
  [1, 0, 2, 0, 3, 0, 4, 0, 5, 0, 6, 0, 7, 0, 8, 0, 1, 1, 2, 1, 1, 2, 2, 2]

/-- Bytes listed from an address on. -/
def cells : Nat → List Byte → Memory
  | _, [] => []
  | a, b :: bs => (a, b) :: cells (a + 1) bs

/-- The start state of vectors W1 to W5: a 4 by 2 conversion of P3's frame, in a given position. -/
def walking (ph : Phase) (row : BitVec 16) (optr : Word) (ob : List Byte) : State :=
  { small with
    width := 4, height := 2, lumaBytes := 10, chromaBytes := 5, outBytes := 15
    status := { Status.cleared with busy := true }
    pc := { phase := ph, row := row, col := 0 }, optr := optr
    fb := cells 0 frameP3, ob := cells 0 ob }

def w1 : State := walking .clear 0 0 [0xAA, 0xBB]
def w2 : State := walking .luma 0 0 [0, 0, 0, 0, 0, 0, 0, 0, 0, 0, 0, 0, 0, 0, 0]
def w3 : State := walking .luma 1 5 [1, 8, 0x30, 0, 1, 0, 0, 0, 0, 0, 0, 0, 0, 0, 0]
def w4 : State := walking .chroma 0 10 [1, 8, 0x30, 0, 1, 5, 0x18, 0x70, 0, 2, 0, 0, 0, 0, 0]
def w5 : State :=
  walking .fin 0 15 [1, 8, 0x30, 0, 1, 5, 0x18, 0x70, 0, 2, 1, 5, 0x28, 0x90, 0x80]

/-- An 8 by 4 conversion in a given position; vector G16's geometry. -/
def walking8 (ph : Phase) (row col : BitVec 16) (optr : Word) : State :=
  { small with
    width := 8, height := 4, lumaBytes := 40, chromaBytes := 20, outBytes := 60
    status := { Status.cleared with busy := true }
    pc := { phase := ph, row := row, col := col }, optr := optr }

/-- An idle block with P3's frame loaded and a given geometry. -/
def idleWith (w h : BitVec 16) : State :=
  { small with width := w, height := h, fb := cells 0 frameP3 }

/-- An idle block with QIN set. -/
def quadPort (q0 q1 : Word) : State := { small with qin0 := q0, qin1 := q1 }

/-- An idle block with STATUS 0x76: every sticky bit set. -/
def allSticky : State :=
  { small with status := { busy := false, done := true, trunc := true,
                           eGeom := true, eCap := true, eCmd := true } }

/-! ### Decoding, from the encodings of R76 to R79 -/

theorem test_decode_nop : decode (.cmdw 0b00000000000000000000000000000000#32) = .ok .nop := rfl
theorem test_decode_packl : decode (.cmdw 0b00000000000000000000000000000001#32) = .ok .packl := rfl
theorem test_decode_packc : decode (.cmdw 0b00000000000000000000000000000010#32) = .ok .packc := rfl
theorem test_decode_fsize : decode (.cmdw 0b00000000000000000000000000000011#32) = .ok .fsize := rfl
theorem test_decode_convert :
    decode (.cmdw 0b00000000000000000000000000000100#32) = .ok .convert := rfl
theorem test_decode_clrst : decode (.cmdw 0b00000000000000000000000000000101#32) = .ok .clrst := rfl
theorem test_decode_wclr : decode (.walk 0b001#3) = .ok .wclr := rfl
theorem test_decode_wlq : decode (.walk 0b010#3) = .ok .wlq := rfl
theorem test_decode_wcq : decode (.walk 0b011#3) = .ok .wcq := rfl
theorem test_decode_wfin : decode (.walk 0b100#3) = .ok .wfin := rfl

/-- Vectors K5 to K9, and the PHASE codes R79 gives no micro-operation. -/
theorem test_decode_illegal :
    decode (.cmdw 0x00000006#32) = .error .opcodeReserved ∧
      decode (.cmdw 0x000000FF#32) = .error .opcodeReserved ∧
      decode (.cmdw 0x00000104#32) = .error .zeroFieldSet ∧
      decode (.cmdw 0x80000000#32) = .error .zeroFieldSet ∧
      decode (.cmdw 0xFFFFFFFF#32) = .error .zeroFieldSet ∧
      decode (.walk 0b000#3) = .error .walkerIdle ∧
      decode (.walk 0b101#3) = .error .phaseUnused ∧
      decode (.walk 0b111#3) = .error .phaseUnused := ⟨rfl, rfl, rfl, rfl, rfl, rfl, rfl, rfl⟩

theorem test_decodeTableWord :
    decodeTableWord 32 4 = some .convert ∧ decodeTableWord 8 4 = some .wfin ∧
      decodeTableWord 3 2 = some .wlq ∧ decodeTableWord 32 0x104 = none ∧
      decodeTableWord 8 0 = none := by decide

theorem test_encode :
    encode .clrst = .cmdw 0x00000005#32 ∧ encode .packc = .cmdw 0x00000002#32 ∧
      encode .wcq = .walk 0b011#3 := ⟨rfl, rfl, rfl⟩

/-! ### WellFormed: an ill-formed term for each check, refused -/

theorem test_wf_params : Config.smallParams.wf ∧ Config.params.wf := by decide
theorem test_wf_fbBytes_zero : ¬({ Config.smallParams with fbBytes := 0 } : Params).wf := by decide
theorem test_wf_fbBytes_large :
    ¬({ Config.smallParams with fbBytes := 2 ^ 32 + 1 } : Params).wf := by decide
theorem test_wf_obBytes_zero : ¬({ Config.smallParams with obBytes := 0 } : Params).wf := by decide
theorem test_wf_obBytes_large :
    ¬({ Config.smallParams with obBytes := 2 ^ 32 + 1 } : Params).wf := by decide
theorem test_wf_pipeDepth_zero :
    ¬({ Config.smallParams with pipeDepth := 0 } : Params).wf := by decide
theorem test_wf_access :
    HostAccess.wf Config.smallParams (.fbRead 95) ∧
      ¬HostAccess.wf Config.smallParams (.fbRead 96) ∧
      ¬HostAccess.wf Config.smallParams (.fbWrite 96 0) ∧
      HostAccess.wf Config.smallParams (.obWrite 63 0) ∧
      ¬HostAccess.wf Config.smallParams (.obWrite 64 0) ∧
      ¬HostAccess.wf Config.smallParams (.obRead 64) := by
  simp [Config.smallParams]

/-! ### Instructions, one step each -/

/-- Vector K2. -/
theorem test_nop : (nextOf (exec .nop allSticky)).map (·.status) = some allSticky.status := rfl

/-- Vector L9. -/
theorem test_packl : (nextOf (exec .packl (quadPort 0x02340123 0x00560345))).map
    (fun t => (t.qout0, t.qout1, t.status.trunc)) = some (0xB458D123, 0x15, false) := by decide

/-- Vector L11: the smallest truncated value. -/
theorem test_packl_trunc : (nextOf (exec .packl (quadPort 0x00000400 0))).map
    (fun t => (t.qout0, t.qout1, t.status.trunc)) = some (0, 0, true) := by decide

/-- Vector C1. -/
theorem test_packc : (nextOf (exec .packc (quadPort 0x00020001 0x00040003))).map
    (fun t => (t.qout0, t.qout1, t.status.trunc)) = some (0x00200C01, 1, false) := by decide

/-- Vector C5. -/
theorem test_packc_v : (nextOf (exec .packc (quadPort 0 0x03FF03FF))).map
    (fun t => (t.qout0, t.qout1)) = some (0xC00FFC00, 0xFF) := by decide

/-- Vector G6, the source's S1, in a large instance. -/
theorem test_fsize_1080p :
    (nextOf (exec .fsize { State.reset with width := 1920, height := 1080 })).map
      (fun t => (t.lumaBytes, t.chromaBytes, t.outBytes, t.status.toWord)) =
    some (0x00278D00, 0x0013C680, 0x003B5380, 0) := by decide

/-- Vectors G16, G18 and G21: the capacity line and the priority of the geometry line. -/
theorem test_fsize_capacity :
    (nextOf (exec .fsize (idleWith 8 4))).map (fun t => (t.outBytes, t.status.toWord)) =
        some (60, 0) ∧
      (nextOf (exec .fsize (idleWith 12 4))).map (fun t => (t.outBytes, t.status.toWord)) =
        some (0, 0x20) ∧
      (nextOf (exec .fsize (idleWith 10 4))).map (fun t => (t.outBytes, t.status.toWord)) =
        some (0, 0x10) := by decide

/-- Program P3, line 7. -/
theorem test_convert :
    (nextOf (exec .convert { idleWith 4 2 with optr := 9 })).map
      (fun t => (t.lumaBytes, t.chromaBytes, t.outBytes, t.status.toWord, t.pc, t.optr)) =
    some (10, 5, 15, 1, ⟨.clear, 0, 0⟩, 0) := by decide

/-- Program P4, lines 4 and 5: DONE is cleared before the check fails. -/
theorem test_convert_refused :
    (nextOf (exec .convert { idleWith 6 2 with outBytes := 15, status.done := true })).map
      (fun t => (t.outBytes, t.status.toWord, t.pc.phase)) = some (15, 0x10, .idle) := by decide

/-- Vector K4. -/
theorem test_clrst :
    allSticky.status.toWord = 0x76 ∧
      (nextOf (exec .clrst allSticky)).map (·.status.toWord) = some 0 := by decide

/-- Vector W1: bytes 0 to 14 zero, byte 15 not written. -/
theorem test_wclr :
    (nextOf (exec .wclr { w1 with ob := [(0, 0xAA), (14, 0xBB), (15, 0xEE)] })).map
      (fun t => (t.ob, t.pc, t.optr)) =
    some (cells 0 [0, 0, 0, 0, 0, 0, 0, 0, 0, 0, 0, 0, 0, 0, 0, 0xEE], ⟨.luma, 0, 0⟩, 0) := by
  decide

/-- Vector W2. -/
theorem test_wlq : (nextOf (exec .wlq w2)).map (fun t => (t.ob, t.pc, t.optr)) =
    some (w3.ob, ⟨.luma, 1, 0⟩, 5) := by decide

/-- Vector W3. -/
theorem test_wlq_last : (nextOf (exec .wlq w3)).map (fun t => (t.ob, t.pc, t.optr)) =
    some (w4.ob, ⟨.chroma, 0, 0⟩, 10) := by decide

/-- Vector W4. -/
theorem test_wcq : (nextOf (exec .wcq w4)).map (fun t => (t.ob, t.pc, t.optr)) =
    some (w5.ob, ⟨.fin, 0, 0⟩, 15) := by decide

/-- The 8 by 4 position sequence after vector W5: within a row and from row to row. -/
theorem test_positions_8x4 :
    (walking8 .luma 0 0 0).afterLuma = ⟨.luma, 0, 4⟩ ∧
      (walking8 .luma 0 4 5).afterLuma = ⟨.luma, 1, 0⟩ ∧
      (walking8 .luma 3 4 35).afterLuma = ⟨.chroma, 0, 0⟩ ∧
      (walking8 .chroma 0 0 40).afterChroma = ⟨.chroma, 0, 2⟩ ∧
      (walking8 .chroma 0 2 45).afterChroma = ⟨.chroma, 1, 0⟩ ∧
      (walking8 .chroma 1 2 55).afterChroma = ⟨.fin, 0, 0⟩ := by decide

/-- Vector W5. -/
theorem test_wfin : (nextOf (exec .wfin w5)).map (fun t => (t.ob, t.pc, t.optr, t.status.toWord)) =
    some (w5.ob, ⟨.idle, 0, 0⟩, 15, 2) := by decide

/-! ### The host's steps -/

/-- R141's examples after vector K11. -/
theorem test_register_writes :
    (after (hostTurn (.regWrite 2 0xFFFFFFFF) small)).readReg 2 = 0x0000FFFF ∧
      (after (hostTurn (.regWrite 9 0xDEADBEEF) small)).readReg 9 = 0xDEADBEEF ∧
      (after (hostTurn (.regWrite 1 0xFFFFFFFF) small)).readReg 1 = 0 ∧
      (after (hostTurn (.regWrite 6 7) small)).readReg 6 = 0 := by decide

/-- Vectors K7 and K11: an illegal word sets E_CMD while idle and does nothing while BUSY. -/
theorem test_illegal_command :
    (after (hostTurn (.regWrite 0 0x104) small)).status.toWord = 0x40 ∧
      (after (hostTurn (.regWrite 0 0x104) w2)).status.toWord = 0x01 := by decide

/-- Vector Z1 on the registers, and FB kept. -/
theorem test_reset_idle :
    (after (hostTurn .assertReset { allSticky with qin0 := 7, fb := [(3, 9)], ob := [(4, 8)] })).qin0
        = 0 ∧
      (after (hostTurn .assertReset { allSticky with fb := [(3, 9)] })).fb = [(3, 9)] ∧
      (after (hostTurn .assertReset { allSticky with ob := [(4, 8)] })).ob = [(4, 8)] := by decide

/-- The word of every row, placed after reset, is what the very next step runs (log entry 11). -/
theorem test_first_step_command :
    step (State.reset.withFetchWord 32 4) = exec .convert State.reset ∧
      step (State.reset.withFetchWord 32 0) = exec .nop State.reset := ⟨rfl, rfl⟩

theorem test_first_step_walk :
    (nextOf (step (State.reset.withFetchWord 8 1))).map (·.pc.phase) = some .luma ∧
      (nextOf (step (State.reset.withFetchWord 8 2))).map (·.optr) = some 5 ∧
      (nextOf (step (State.reset.withFetchWord 8 3))).map (·.optr) = some 5 ∧
      (nextOf (step (State.reset.withFetchWord 8 4))).map (·.status.done) = some true := by
  decide

/-- R146 in the notation of R81: the frame program of P3 begins with the two geometry writes. -/
theorem test_program_p3 :
    (turnsOneFrame 4 2 frameP3 6 16).length = 2 + 24 + 1 + 12 + 2 + 16 ∧
      turnsCmd .convert = [.host (.regWrite 0 4)] := by decide

/-- R51 with vector V20's value and bytes, on both spaces. -/
theorem test_wide_transfers :
    turnsWideWrite .fb 8 (n := 2) 0x0201#16 = [.host (.fbWrite 8 1), .host (.fbWrite 9 2)] ∧
      turnsWideWrite .ob 3 (n := 5) 0x0100300801#40 =
        [.host (.obWrite 3 1), .host (.obWrite 4 8), .host (.obWrite 5 0x30),
          .host (.obWrite 6 0), .host (.obWrite 7 1)] ∧
      turnsWideRead .fb 8 2 = [.host (.fbRead 8), .host (.fbRead 9)] ∧
      wideReadValue 5 [.byte 1, .byte 0, .byte 0x30, .byte 8, .byte 1] = some 0x0100300801#40 ∧
      wideReadValue 2 [.byte 1] = none := by decide

/-! ### Witnesses: states and operands that meet the hypotheses of each statement -/

/-- `s` with the walker about to move. -/
def walkerTurn (s : State) : State := { s with turns := [.walker] }

theorem hostTurn_moves (a : HostAccess) (s : State) : (hostTurn a s).hostMoves a := ⟨[], rfl⟩

/-- `s` with the host about to write a word to CMD. -/
def cmdTurn (c : Word) (s : State) : State := hostTurn (.regWrite 0 c) s

/-- The hypotheses on a word written to CMD: busy, a ZERO field set, each opcode, and the two ends
of the reserved range. -/
theorem witness_WriteToCmdDecodesOneCommand :
    ((cmdTurn 4 w2).hostMoves (.regWrite 0 4) ∧ (cmdTurn 4 w2).status.busy = true) ∧
      ((cmdTurn 0x104 small).hostMoves (.regWrite 0 0x104) ∧
        (cmdTurn 0x104 small).status.busy = false) ∧
      ((0x104#32).extractLsb' 8 24 ≠ 0#24 ∧ (0x80000000#32).extractLsb' 8 24 ≠ 0#24) ∧
      (∀ o ∈ [0#32, 1#32, 2#32, 3#32, 4#32, 5#32, 6#32, 255#32], o.extractLsb' 8 24 = 0#24) ∧
      ((0#32).extractLsb' 0 8 = 0x00#8 ∧ (1#32).extractLsb' 0 8 = 0x01#8 ∧
        (2#32).extractLsb' 0 8 = 0x02#8 ∧ (3#32).extractLsb' 0 8 = 0x03#8 ∧
        (4#32).extractLsb' 0 8 = 0x04#8 ∧ (5#32).extractLsb' 0 8 = 0x05#8) ∧
      (0x05#8 < (6#32).extractLsb' 0 8 ∧ 0x05#8 < (255#32).extractLsb' 0 8) :=
  ⟨⟨hostTurn_moves _ _, rfl⟩, ⟨hostTurn_moves _ _, rfl⟩, by decide, by simp, by decide,
    by decide⟩

/-- The five clauses: an idle block's command, the walker's turn and the empty list in a phase, and
both in IDLE. -/
theorem witness_StepRunsTheFetchedInstruction :
    ((cmdTurn 3 small).turns = .host (.regWrite 0 3) :: [] ∧
        (cmdTurn 3 small).status.busy = false) ∧
      decode (.cmdw 3) = .ok .fsize ∧
      (walkerTurn w2).turns = .walker :: [] ∧
      decode (.walk (walkerTurn w2).pc.phase.code) = .ok .wlq ∧
      w4.turns = [] ∧ decode (.walk w4.pc.phase.code) = .ok .wcq ∧
      ((walkerTurn small).turns = .walker :: [] ∧ (walkerTurn small).pc.phase = .idle) ∧
      (small.turns = [] ∧ small.pc.phase = .idle) :=
  ⟨⟨rfl, rfl⟩, rfl, rfl, rfl, rfl, rfl, ⟨rfl, rfl⟩, rfl, rfl⟩

/-- Every word index can be read; the reserved ones are 7 and 12 to 15. -/
theorem witness_RegisterReadReturnsItsRegister :
    (∀ n, (hostTurn (.regRead n) w2).hostMoves (.regRead n)) ∧
      ((7 : Fin 16) = 7 ∨ (12 : Fin 16) ≤ 7) ∧ ((12 : Fin 16) = 7 ∨ (12 : Fin 16) ≤ 12) ∧
      ((15 : Fin 16) = 7 ∨ (12 : Fin 16) ≤ 15) :=
  ⟨fun _ => hostTurn_moves _ _, by decide⟩

/-- Busy and idle writes of every index; the ends of each range of ignored indexes. -/
theorem witness_RegisterWriteTakesEffectOnlyWhileIdle :
    (∀ n v, (hostTurn (.regWrite n v) w2).hostMoves (.regWrite n v)) ∧ w2.status.busy = true ∧
      (∀ n v, (hostTurn (.regWrite n v) small).hostMoves (.regWrite n v)) ∧
      small.status.busy = false ∧
      decode (.cmdw 4) = .ok .convert ∧ decode (.cmdw 6) = .error .opcodeReserved ∧
      (∀ n ∈ [(1 : Fin 16), 4, 7, 10, 15], n = 1 ∨ (4 ≤ n ∧ n ≤ 7) ∨ 10 ≤ n) :=
  ⟨fun _ _ => hostTurn_moves _ _, rfl, fun _ _ => hostTurn_moves _ _, rfl, rfl, rfl, by decide⟩

/-- The first and the last byte of each space, idle and busy. -/
theorem witness_HostByteAccessFollowsBusy :
    (∀ a, (∀ s, (hostTurn a s).hostMoves a) ∧ (hostTurn a w2).status.busy = true ∧
      (hostTurn a small).status.busy = false) ∧
      0 < small.params.fbBytes ∧ 95 < small.params.fbBytes ∧
      0 < small.params.obBytes ∧ 63 < small.params.obBytes :=
  ⟨fun a => ⟨hostTurn_moves a, rfl, rfl⟩, by decide⟩

/-- The three kinds of read, busy. -/
theorem witness_HostReadsHaveNoSideEffect :
    (∀ a, (hostTurn a w2).hostMoves a) ∧
      step (hostTurn (.regRead 1) w2) = .next (after (hostTurn (.regRead 1) w2)) ∧
      step (hostTurn (.fbRead 0) w2) = .next (after (hostTurn (.fbRead 0) w2)) ∧
      step (hostTurn (.obRead 63) w2) = .next (after (hostTurn (.obRead 63) w2)) :=
  ⟨fun _ => hostTurn_moves _ _, rfl, rfl, rfl⟩

/-- The first address past each space. -/
theorem witness_InexpressibleAddressIsRefused :
    (∀ a, (hostTurn a small).hostMoves a) ∧ small.params.fbBytes ≤ 96 ∧
      small.params.obBytes ≤ 64 := ⟨fun _ => hostTurn_moves _ _, by decide⟩

theorem witness_HostCannotDisturbARunningConversion :
    w2.status.busy = true ∧ (hostTurn (.regWrite 2 8) w2).hostMoves (.regWrite 2 8) ∧
      HostAccess.regWrite 2 8 ≠ .assertReset ∧
      step (hostTurn (.regWrite 2 8) w2) = .next (after (hostTurn (.regWrite 2 8) w2)) ∧
      step (hostTurn (.fbWrite 0 0xFF) w2) = .next (after (hostTurn (.fbWrite 0 0xFF) w2)) :=
  ⟨rfl, hostTurn_moves _ _, by decide, rfl, rfl⟩

/-- A transfer that ends at the last byte of each space, idle and busy, and an empty one there. -/
theorem witness_WideTransfersAreByteAccesses :
    (91 + 5 ≤ small.capacity .fb ∧ 59 + 5 ≤ small.capacity .ob ∧ 96 + 0 ≤ small.capacity .fb) ∧
      (∀ (u : State) (S : Space) (a n : Nat) (v : BitVec (8 * n)),
        ({ u with turns := turnsWideWrite S a v ++ [] } : State).turns =
            turnsWideWrite S a v ++ [] ∧
          ({ u with turns := turnsWideRead S a n ++ [] } : State).turns =
            turnsWideRead S a n ++ []) ∧
      small.status.busy = false ∧ w2.status.busy = true :=
  ⟨by decide, fun _ _ _ _ _ => ⟨rfl, rfl⟩, rfl, rfl⟩

/-- Vectors L1 and L10's low bits: two blocks alike on bits 9:0 of each halfword. -/
theorem witness_QuadpackIgnoresAndReportsHighBits :
    ∀ i, i % 16 < 10 →
      (0x03FF03FF03FF03FF#64).getLsbD i = (0xFFFFFFFFFFFFFFFF#64).getLsbD i := by
  have key : ∀ i : Fin 64, i.val % 16 < 10 →
      (0x03FF03FF03FF03FF#64).getLsbD i = (0xFFFFFFFFFFFFFFFF#64).getLsbD i := by decide
  intro i h
  by_cases h64 : i < 64
  · exact key ⟨i, h64⟩ h
  · rw [BitVec.getLsbD_of_ge _ _ (by omega), BitVec.getLsbD_of_ge _ _ (by omega)]

/-- For each of the four samples, two blocks that differ in it alone. -/
theorem witness_SampleChangesOnlyItsOwnField :
    ∀ k, k < 4 → ∀ i, i / 16 ≠ k → (0#64).getLsbD i = ((0xFFFF#64) <<< (16 * k)).getLsbD i := by
  have key : ∀ (k : Fin 4) (i : Fin 64), i.val / 16 ≠ k.val →
      (0#64).getLsbD i = ((0xFFFF#64) <<< (16 * k.val)).getLsbD i := by decide
  intro k hk i hi
  by_cases h64 : i < 64
  · exact key ⟨k, hk⟩ ⟨i, h64⟩ hi
  · rw [BitVec.getLsbD_of_ge _ _ (by omega), BitVec.getLsbD_of_ge _ _ (by omega)]

theorem witness_QoutHoldsTheFiveBytes :
    exec .packl (quadPort 0x03FF0000 0x03FF0000) =
        .next (packPort .luma (quadPort 0x03FF0000 0x03FF0000)) ∧
      exec .packc (quadPort 0x00020001 0x00040003) =
        .next (packPort .chroma (quadPort 0x00020001 0x00040003)) := ⟨rfl, rfl⟩

/-- Vector G16: the largest frame of the small instance; the smallest conforming frame; and in the
largest instance a frame of 2^14 by 2^14 samples. -/
theorem witness_AcceptedSizesAreExact :
    Config.smallParams.wf ∧ (Conforming 8 4 ∧ Fits Config.smallParams 8 4) ∧
      (Conforming 4 2 ∧ Fits Config.smallParams 4 2) ∧
      Config.params.wf ∧ Conforming 16384 16384 ∧ Fits Config.params 16384 16384 := by decide

theorem witness_AcceptedGeometryWritesTheSizes :
    (idleWith 8 4).params.wf ∧ Conforming (idleWith 8 4).w (idleWith 8 4).h ∧
      Fits (idleWith 8 4).params (idleWith 8 4).w (idleWith 8 4).h := by decide

/-- Vectors G7, G10, G12; G18; K5 and K7. -/
theorem witness_FaultSetsOnlyItsBit :
    (¬Conforming (idleWith 0 0).w (idleWith 0 0).h ∧ ¬Conforming (idleWith 6 2).w (idleWith 6 2).h ∧
        ¬Conforming (idleWith 4 3).w (idleWith 4 3).h) ∧
      (Conforming (idleWith 12 4).w (idleWith 12 4).h ∧
        ¬Fits (idleWith 12 4).params (idleWith 12 4).w (idleWith 12 4).h) ∧
      ((cmdTurn 6 small).status.busy = false ∧ (cmdTurn 6 small).hostMoves (.regWrite 0 6) ∧
        0x06#8 ≤ (6#32).extractLsb' 0 8) ∧
      (cmdTurn 0x104 small).hostMoves (.regWrite 0 0x104) ∧ (0x104#32).extractLsb' 8 24 ≠ 0#24 :=
  ⟨by decide, by decide, ⟨rfl, hostTurn_moves _ _, by decide⟩, hostTurn_moves _ _, by decide⟩

theorem witness_NopChangesNothing :
    (cmdTurn 0 small).hostMoves (.regWrite 0 0#32) ∧ (cmdTurn 0 w2).hostMoves (.regWrite 0 0#32) :=
  ⟨hostTurn_moves _ _, hostTurn_moves _ _⟩

theorem witness_ClrstClearsTheStickyBits :
    (cmdTurn 5 allSticky).status.busy = false ∧ (cmdTurn 5 allSticky).hostMoves (.regWrite 0 5#32) :=
  ⟨rfl, hostTurn_moves _ _⟩

/-- An output area that fills OB exactly, and an empty one. -/
theorem witness_WclrZeroesTheOutputArea :
    w1.outBytes.toNat ≤ w1.params.obBytes ∧
      ({ w1 with outBytes := 64 } : State).outBytes.toNat ≤ w1.params.obBytes ∧
      ({ w1 with outBytes := 0 } : State).outBytes.toNat ≤ w1.params.obBytes := by decide

/-- The hypotheses of WLQ's statement for one state. -/
abbrev WlqHyps (s : State) : Prop :=
  2 * (s.pc.row.toNat * s.w + s.pc.col.toNat) + 8 ≤ s.params.fbBytes ∧
    s.optr.toNat + 5 ≤ s.params.obBytes

/-- Within a row, from row to row, and from the last quad to the chroma grid. -/
theorem witness_WlqPacksOneLumaQuad :
    (WlqHyps (walking8 .luma 0 0 0) ∧ 0 + 4 < (walking8 .luma 0 0 0).w) ∧
      (WlqHyps (walking8 .luma 0 4 5) ∧ (walking8 .luma 0 4 5).w ≤ 4 + 4 ∧
        0 + 1 < (walking8 .luma 0 4 5).h) ∧
      (WlqHyps (walking8 .luma 3 4 35) ∧ (walking8 .luma 3 4 35).w ≤ 4 + 4 ∧
        (walking8 .luma 3 4 35).h ≤ 3 + 1) := by decide

/-- The hypotheses of WCQ's statement for one state. -/
abbrev WcqHyps (s : State) : Prop :=
  addrU s.w s.h (s.pc.row.toNat * (s.w / 2) + s.pc.col.toNat) + 4 ≤ s.params.fbBytes ∧
    addrV s.w s.h (s.pc.row.toNat * (s.w / 2) + s.pc.col.toNat) + 4 ≤ s.params.fbBytes ∧
    s.optr.toNat + 5 ≤ s.params.obBytes

/-- Within a row, from row to row, and from the last quad to FIN. -/
theorem witness_WcqPacksOneChromaQuad :
    (WcqHyps (walking8 .chroma 0 0 40) ∧ 0 + 2 < (walking8 .chroma 0 0 40).w / 2) ∧
      (WcqHyps (walking8 .chroma 0 2 45) ∧ (walking8 .chroma 0 2 45).w / 2 ≤ 2 + 2 ∧
        0 + 1 < (walking8 .chroma 0 2 45).h / 2) ∧
      (WcqHyps (walking8 .chroma 1 2 55) ∧ (walking8 .chroma 1 2 55).w / 2 ≤ 2 + 2 ∧
        (walking8 .chroma 1 2 55).h / 2 ≤ 1 + 1) := by decide

/-- One byte too far, in each of the five clauses. -/
theorem witness_WalkerAccessOutsideItsSpaceFaults :
    (w1.params.obBytes < ({ w1 with outBytes := 65 } : State).outBytes.toNat) ∧
      (walking8 .luma 5 5 0).params.fbBytes < (walking8 .luma 5 5 0).lumaAddr + 8 ∧
      ((walking8 .luma 3 4 60).lumaAddr + 8 ≤ (walking8 .luma 3 4 60).params.fbBytes ∧
        (walking8 .luma 3 4 60).params.obBytes < (walking8 .luma 3 4 60).storeAddr + 5) ∧
      (walking8 .chroma 1 3 0).params.fbBytes < (walking8 .chroma 1 3 0).vAddr + 4 ∧
      (walking8 .chroma 3 3 0).params.fbBytes < (walking8 .chroma 3 3 0).uAddr + 4 ∧
      ((walking8 .chroma 1 2 60).uAddr + 4 ≤ (walking8 .chroma 1 2 60).params.fbBytes ∧
        (walking8 .chroma 1 2 60).vAddr + 4 ≤ (walking8 .chroma 1 2 60).params.fbBytes ∧
        (walking8 .chroma 1 2 60).params.obBytes < (walking8 .chroma 1 2 60).storeAddr + 5) := by
  decide

/-- Vector V20 at the first and at the last place of OB. -/
theorem witness_StorageIsLittleEndian :
    small.writeOb 0 (0x0100300801#40) 5 =
        some { small with ob := memWrite small.ob 0 (0x0100300801#40) 5 } ∧
      small.writeOb 59 (0x0100300801#40) 5 =
        some { small with ob := memWrite small.ob 59 (0x0100300801#40) 5 } := ⟨rfl, rfl⟩

theorem witness_StepKeepsMemoriesCanonical :
    w4.MemoriesWf ∧ step w4 = .next (after w4) := ⟨by decide, rfl⟩

/-- Program P10, line 5, while idle. -/
theorem witness_FbChangesOnlyByIdleHostWrite :
    let s := hostTurn (.fbWrite 0 0xFF) (idleWith 4 2)
    step s = .next (after s) ∧ (after s).fbByte 0 ≠ s.fbByte 0 := ⟨rfl, by decide⟩

/-! Inv in each phase. -/

theorem inv_w1 : w1.Inv where
  params := by decide
  memories := by decide
  busy := by decide
  done := by decide
  position := by
    change w1.Accepted ∧ w1.SizesMatch ∧ w1.pc.row = 0#16 ∧ w1.pc.col = 0#16 ∧ w1.optr = 0#32
    decide

theorem inv_w3 : w3.Inv where
  params := by decide
  memories := by decide
  busy := by decide
  done := by decide
  position := by
    change w3.Accepted ∧ w3.SizesMatch ∧ w3.pc.col.toNat % 4 = 0 ∧ w3.pc.row.toNat < w3.h ∧
      w3.pc.col.toNat < w3.w ∧ w3.optr.toNat = 5 * (w3.lumaIndex / 4)
    decide

theorem inv_w4 : w4.Inv where
  params := by decide
  memories := by decide
  busy := by decide
  done := by decide
  position := by
    change w4.Accepted ∧ w4.SizesMatch ∧ w4.pc.col.toNat % 2 = 0 ∧ w4.pc.row.toNat < w4.h / 2 ∧
      w4.pc.col.toNat < w4.w / 2 ∧ w4.optr.toNat = lumaSize w4.w w4.h + 5 * (w4.chromaIndex / 2)
    decide

theorem inv_w5 : w5.Inv where
  params := by decide
  memories := by decide
  busy := by decide
  done := by decide
  position := by
    change w5.Accepted ∧ w5.SizesMatch ∧ w5.pc.row = 0#16 ∧ w5.pc.col = 0#16 ∧
      w5.optr.toNat = outSize w5.w w5.h
    decide

theorem inv_idle : (idleWith 4 2).Inv where
  params := by decide
  memories := by decide
  busy := by decide
  done := by decide
  position := by
    change (idleWith 4 2).pc.row = 0#16 ∧ (idleWith 4 2).pc.col = 0#16
    decide

theorem Inv_hostTurn {s : State} (h : s.Inv) (a : HostAccess) : (hostTurn a s).Inv :=
  ⟨h.params, h.memories, h.busy, h.done, h.position⟩

/-- A walker step that changes a byte below OUT_BYTES, and an idle host write that changes one. -/
theorem witness_ObChangesOnlyByIdleHostOrBelowOutBytes :
    (w4.Inv ∧ step w4 = .next (after w4) ∧ (after w4).obByte 10 ≠ w4.obByte 10) ∧
      (let s := hostTurn (.obWrite 63 9) { idleWith 4 2 with ob := [(63, 8)] }
       step s = .next (after s) ∧ (after s).obByte 63 ≠ s.obByte 63) :=
  ⟨⟨inv_w4, rfl, by decide⟩, rfl, by decide⟩

/-- One step for each change of a STATUS field. -/
theorem witness_StatusFieldsChangeOnlyAsTabled :
    (let s := cmdTurn 4 (idleWith 4 2)
     step s = .next (after s) ∧ s.status.busy = false ∧ (after s).status.busy = true) ∧
    (step w5 = .next (after w5) ∧ w5.status.busy = true ∧ (after w5).status.busy = false ∧
      w5.status.done = false ∧ (after w5).status.done = true) ∧
    (let s := cmdTurn 5 allSticky
     step s = .next (after s) ∧ s.status.done = true ∧ (after s).status.done = false ∧
      s.status.trunc = true ∧ (after s).status.trunc = false ∧
      ∀ f ∈ [CommandFault.invalidGeometry, .capacity, .illegalCommand],
        s.status.hasFault f = true ∧ (after s).status.hasFault f = false) ∧
    (let s := cmdTurn 1 (quadPort 0x400 0)
     step s = .next (after s) ∧ s.status.trunc = false ∧ (after s).status.trunc = true) ∧
    (let s := cmdTurn 3 (idleWith 6 2)
     step s = .next (after s) ∧ s.status.eGeom = false ∧ (after s).status.eGeom = true) ∧
    (let s := cmdTurn 3 (idleWith 12 4)
     step s = .next (after s) ∧ s.status.eCap = false ∧ (after s).status.eCap = true) ∧
    (let s := cmdTurn 6 small
     step s = .next (after s) ∧ s.status.eCmd = false ∧ (after s).status.eCmd = true) :=
  ⟨⟨rfl, by decide⟩, ⟨rfl, by decide⟩, ⟨rfl, by decide⟩, ⟨rfl, by decide⟩, ⟨rfl, by decide⟩,
    ⟨rfl, by decide⟩, rfl, by decide⟩

/-- A step that is not a reset is one whose turn is another access, or the walker's. -/
theorem not_reset_of_hostTurn {a : HostAccess} (s : State) (h : a ≠ .assertReset) :
    ¬(hostTurn a s).hostMoves .assertReset := by
  rintro ⟨ts, e⟩
  cases e
  exact h rfl

theorem not_reset_of_nil {s : State} (h : s.turns = []) : ¬s.hostMoves .assertReset := by
  rintro ⟨ts, e⟩
  rw [h] at e
  cases e

/-- One step for each register's writer. -/
theorem witness_RegistersChangeOnlyByTheirWriters :
    (∀ n ∈ [(2 : Fin 16), 3, 8, 9],
      ¬(hostTurn (.regWrite n 7) small).hostMoves .assertReset ∧
        step (hostTurn (.regWrite n 7) small) = .next (after (hostTurn (.regWrite n 7) small))) ∧
    ((after (hostTurn (.regWrite 2 7) small)).width ≠ small.width ∧
      (after (hostTurn (.regWrite 3 7) small)).height ≠ small.height ∧
      (after (hostTurn (.regWrite 8 7) small)).qin0 ≠ small.qin0 ∧
      (after (hostTurn (.regWrite 9 7) small)).qin1 ≠ small.qin1) ∧
    (let s := cmdTurn 1 (quadPort 1 0)
     step s = .next (after s) ∧ (after s).qout0 ≠ s.qout0) ∧
    (let s := cmdTurn 3 (idleWith 4 2)
     step s = .next (after s) ∧ (after s).lumaBytes ≠ s.lumaBytes) ∧
    (¬w4.hostMoves .assertReset ∧ step w4 = .next (after w4) ∧ (after w4).optr ≠ w4.optr) := by
  refine ⟨fun n hn => ⟨not_reset_of_hostTurn _ (by simp), ?_⟩, by decide, ⟨rfl, by decide⟩,
    ⟨rfl, by decide⟩, not_reset_of_nil rfl, rfl, by decide⟩
  simp only [List.mem_cons, List.not_mem_nil, or_false] at hn
  rcases hn with rfl | rfl | rfl | rfl <;> rfl

/-- The five moves of PHASE. -/
theorem witness_PhaseMovesOnlyAlongTheSequence :
    (let s := cmdTurn 4 (idleWith 4 2)
     s.BusyMatchesPhase ∧ step s = .next (after s) ∧ ¬s.hostMoves .assertReset ∧
      (after s).pc.phase ≠ s.pc.phase) ∧
    (∀ s ∈ [w1, w3, w4, w5],
      s.BusyMatchesPhase ∧ step s = .next (after s) ∧ ¬s.hostMoves .assertReset ∧
        (after s).pc.phase ≠ s.pc.phase) := by
  refine ⟨⟨by decide, rfl, not_reset_of_hostTurn _ (by simp), by decide⟩, fun s hs => ?_⟩
  simp only [List.mem_cons, List.not_mem_nil, or_false] at hs
  rcases hs with rfl | rfl | rfl | rfl <;>
    exact ⟨by decide, rfl, not_reset_of_nil rfl, by decide⟩

theorem witness_StepKeepsBusyMatchingPhase :
    (w5.BusyMatchesPhase ∧ step w5 = .next (after w5)) ∧
      (let s := cmdTurn 4 (idleWith 4 2)
       s.BusyMatchesPhase ∧ step s = .next (after s)) :=
  ⟨⟨by decide, rfl⟩, by decide, rfl⟩

/-- Vectors Z1 and Z2. -/
theorem witness_ResetClearsRegistersNotMemories :
    (hostTurn .assertReset allSticky).hostMoves .assertReset ∧
      (hostTurn .assertReset allSticky).status.busy = false ∧
      (hostTurn .assertReset w4).hostMoves .assertReset ∧ w4.outBytes.toNat ≤ 15 :=
  ⟨hostTurn_moves _ _, rfl, hostTurn_moves _ _, by decide⟩

theorem witness_ResetMeetsTheInvariant : Config.smallParams.wf := by decide

/-- A step from the invariant in each phase. -/
theorem witness_StepKeepsTheInvariant :
    (w1.Inv ∧ step w1 = .next (after w1)) ∧ (w3.Inv ∧ step w3 = .next (after w3)) ∧
      (w4.Inv ∧ step w4 = .next (after w4)) ∧ (w5.Inv ∧ step w5 = .next (after w5)) ∧
      ((cmdTurn 4 (idleWith 4 2)).Inv ∧
        step (cmdTurn 4 (idleWith 4 2)) = .next (after (cmdTurn 4 (idleWith 4 2)))) :=
  ⟨⟨inv_w1, rfl⟩, ⟨inv_w3, rfl⟩, ⟨inv_w4, rfl⟩, ⟨inv_w5, rfl⟩, Inv_hostTurn inv_idle _, rfl⟩

/-- The last byte of each space, and the walker's turn. -/
theorem witness_StepGoesOnUnderTheInvariant :
    (∀ a ∈ [HostAccess.fbRead 95, .obWrite 63 0, .regWrite 0 4],
      (hostTurn a (idleWith 4 2)).Inv ∧
        ∀ b, (hostTurn a (idleWith 4 2)).hostMoves b → b.wf (idleWith 4 2).params) ∧
      (w4.Inv ∧ ∀ a, w4.hostMoves a → a.wf w4.params) := by
  refine ⟨fun a ha => ⟨Inv_hostTurn inv_idle _, ?_⟩, inv_w4, ?_⟩
  · rintro b ⟨ts, e⟩
    cases e
    simp only [List.mem_cons, List.not_mem_nil, or_false] at ha
    rcases ha with rfl | rfl | rfl <;> simp [HostAccess.wf, idleWith, small, State.resetWith,
      Config.smallParams]
  · rintro a ⟨ts, e⟩
    cases e

theorem witness_WalkerStaysInsideTheFrame :
    (w3.Inv ∧ w3.pc.phase = .luma) ∧ (w4.Inv ∧ w4.pc.phase = .chroma) ∧
      (w1.Inv ∧ w1.pc.phase ≠ .idle) := ⟨⟨inv_w3, rfl⟩, ⟨inv_w4, rfl⟩, inv_w1, by decide⟩

theorem witness_EachWalkerStepComesOneNearer :
    ∀ s ∈ [w1, w3, w4, w5],
      s.Inv ∧ s.pc.phase ≠ .idle ∧ s.walkerMoves = true ∧ step s = .next (after s) := by
  intro s hs
  simp only [List.mem_cons, List.not_mem_nil, or_false] at hs
  rcases hs with rfl | rfl | rfl | rfl
  · exact ⟨inv_w1, by decide, rfl, rfl⟩
  · exact ⟨inv_w3, by decide, rfl, rfl⟩
  · exact ⟨inv_w4, by decide, rfl, rfl⟩
  · exact ⟨inv_w5, by decide, rfl, rfl⟩

/-- W3's state has its first luma quad in place, W4's both, W5's all three. -/
theorem outputSoFar_w3 : w3.OutputSoFar := by
  change ∀ i, i < 1 → w3.obQuad (5 * i) = w3.lumaQuadOf i
  decide

theorem outputSoFar_w5 : w5.OutputSoFar := by
  change (∀ i, i < 2 → w5.obQuad (5 * i) = w5.lumaQuadOf i) ∧
    (∀ j, j < 1 → w5.obQuad (10 + 5 * j) = w5.chromaQuadOf j)
  decide

theorem witness_StepKeepsTheOutputSoFar :
    (w3.Inv ∧ w3.OutputSoFar ∧ step w3 = .next (after w3)) ∧
      (w5.Inv ∧ w5.OutputSoFar ∧ step w5 = .next (after w5) ∧ w5.microOpRuns .wfin) :=
  ⟨⟨inv_w3, outputSoFar_w3, rfl⟩, inv_w5, outputSoFar_w5, rfl, rfl, rfl⟩

/-- Program P3's state before its CONVERT. -/
theorem witness_ConversionGivesTheClosedForm :
    (idleWith 4 2).Inv ∧ (idleWith 4 2).turns = [] ∧ (idleWith 4 2).status.busy = false ∧
      Conforming (idleWith 4 2).w (idleWith 4 2).h ∧
      Fits (idleWith 4 2).params (idleWith 4 2).w (idleWith 4 2).h :=
  ⟨inv_idle, rfl, rfl, by decide, by decide⟩

/-- The first and the last sample of the quads of P3. -/
theorem witness_EachSampleStandsInItsOwnQuad :
    (w5.LumaDone 2 ∧ 0 < 4 * 2 ∧ 7 < 4 * 2) ∧ (w5.ChromaDone 1 ∧ 0 < 2 * 1 ∧ 1 < 2 * 1) :=
  ⟨⟨outputSoFar_w5.1, by decide⟩, outputSoFar_w5.2, by decide⟩

/-- Two states with P3's frame in FB and different bytes above it. -/
theorem witness_OutputDependsOnTheFrameAlone :
    let s := idleWith 4 2
    let t : State := { idleWith 4 2 with fb := cells 0 (frameP3 ++ [7]) }
    s.width = t.width ∧ s.height = t.height ∧ Conforming s.w s.h ∧
      ∀ a, a < 3 * npix s.w s.h → s.fbByte a = t.fbByte a := by
  refine ⟨rfl, rfl, by decide, ?_⟩
  change ∀ a, a < 24 → _
  decide

/-- Two running conversions of different frames. -/
theorem witness_SampleContentNeverSteersTheMachine :
    w3.SameControl { w3 with fb := cells 0 [9, 9, 9], qin0 := 5, status.trunc := true } ∧
      step w3 = .next (after w3) :=
  ⟨⟨rfl, rfl, rfl, rfl, rfl, rfl, rfl, rfl, rfl, rfl, rfl, rfl, rfl, rfl, rfl⟩, rfl⟩

end Sys2Proof.Tests
end

section
/-! Where a step runs `exec`, and what an idle walker's turn does. -/

namespace Sys2Proof.Machine

theorem State.afterTurn_of_cons {s : State} {t : Turn} {ts : List Turn} (h : s.turns = t :: ts) :
    s.afterTurn = { s with turns := ts } := by
  rw [State.afterTurn, h, List.tail_cons]

theorem State.walkerMoves_of_nil {s : State} (h : s.turns = []) : s.walkerMoves = true := by
  rw [State.walkerMoves, h]

theorem State.walkerMoves_of_cons {s : State} {ts : List Turn} (h : s.turns = .walker :: ts) :
    s.walkerMoves = true := by
  rw [State.walkerMoves, h]

/-- PHASE IDLE selects no micro-operation (R79), so the walker's turn is only taken off the list. -/
theorem step_walker_idle {s : State} (hm : s.walkerMoves = true) (hp : s.pc.phase = .idle) :
    step s = .next s.afterTurn := by
  have hd : decode (.walk s.pc.phase.code) = .error .walkerIdle := by
    rw [decode_phase_code, hp]
  simp only [step, fetch_of_walkerMoves hm, fetchWalker, State.afterTurn_pc, hd]

/-- Settles O4: the first three clauses are the two ways a step runs an instruction
(`step_of_runs`), the last two the idle walker's turn (`step_walker_idle`). -/
theorem stepRunsTheFetchedInstruction : Obligations.StepRunsTheFetchedInstruction := by
  intro s ts
  refine ⟨fun c i ht hb hd => ?command, fun i ht hd => ?walker, fun i ht hd => ?noTurn,
    fun ht hp => ?idleWalker, fun ht hp => ?idleNoTurn⟩
  case command =>
    have hr : s.runs i := .inl ⟨hb, c, ⟨ts, ht⟩, hd⟩
    rw [step_of_runs hr, State.afterTurn_of_cons ht]
  case walker =>
    have hr : s.runs i := .inr ⟨State.walkerMoves_of_cons ht, hd⟩
    rw [step_of_runs hr, State.afterTurn_of_cons ht]
  case noTurn =>
    have hr : s.runs i := .inr ⟨State.walkerMoves_of_nil ht, hd⟩
    rw [step_of_runs hr, State.afterTurn_of_nil ht]
  case idleWalker =>
    rw [step_walker_idle (State.walkerMoves_of_cons ht) hp, State.afterTurn_of_cons ht]
  case idleNoTurn =>
    rw [step_walker_idle (State.walkerMoves_of_nil ht) hp, State.afterTurn_of_nil ht]

end Sys2Proof.Machine
end

section
/-! What a step does to the block, field by field: the effects of the turns that run no instruction
(`StepEffect`), and which instruction changes which part of the state. -/

namespace Sys2Proof.Machine

/-! ### Turns -/

/-- A host read of FB changes the record of reads alone, R31. -/
theorem hostReadFb_eq (s : State) (a : Nat) :
    ∃ r d, s.hostReadFb a = { s with replies := r, draws := d } := by
  rcases hostReadFb_cases s a with ⟨-, e⟩ | ⟨-, e⟩ <;> exact ⟨_, _, e⟩

/-- A host read of OB changes the record of reads alone, R31. -/
theorem hostReadOb_eq (s : State) (a : Nat) :
    ∃ r d, s.hostReadOb a = { s with replies := r, draws := d } := by
  rcases hostReadOb_cases s a with ⟨-, e⟩ | ⟨-, e⟩ <;> exact ⟨_, _, e⟩

/-- Everything a step can do to the block: it runs an instruction, it leaves every field of the
block as it was (`quiet`: reads, writes that are ignored, the idle walker), or the host's access
has the one effect R141, R142, R145 or R180 gives it. -/
inductive StepEffect (s : State) : State → Prop where
  | ran {i : Instr} {t : State} (hr : s.runs i) (hx : exec i s.afterTurn = .next t) : StepEffect s t
  | quiet (r : List Reply) (d : Nat) : StepEffect s { s.afterTurn with replies := r, draws := d }
  | setWidth (v : Word) (hm : s.hostMoves (.regWrite 2 v)) (hb : s.status.busy = false) :
    StepEffect s { s.afterTurn with width := v.extractLsb' 0 16 }
  | setHeight (v : Word) (hm : s.hostMoves (.regWrite 3 v)) (hb : s.status.busy = false) :
    StepEffect s { s.afterTurn with height := v.extractLsb' 0 16 }
  | setQin0 (v : Word) (hm : s.hostMoves (.regWrite 8 v)) (hb : s.status.busy = false) :
    StepEffect s { s.afterTurn with qin0 := v }
  | setQin1 (v : Word) (hm : s.hostMoves (.regWrite 9 v)) (hb : s.status.busy = false) :
    StepEffect s { s.afterTurn with qin1 := v }
  | illegal (c : Word) (e : DecodeError) (hm : s.hostMoves (.regWrite 0 c))
    (hb : s.status.busy = false) (hd : decode (.cmdw c) = .error e) :
    StepEffect s (s.afterTurn.raise .illegalCommand)
  | fbWrite (a : Nat) (b : Byte) (hm : s.hostMoves (.fbWrite a b)) (hb : s.status.busy = false)
    (ha : a < s.params.fbBytes) : StepEffect s { s.afterTurn with fb := s.fb.write a b }
  | obWrite (a : Nat) (b : Byte) (hm : s.hostMoves (.obWrite a b)) (hb : s.status.busy = false)
    (ha : a < s.params.obBytes) : StepEffect s { s.afterTurn with ob := s.ob.write a b }
  | reset (hm : s.hostMoves .assertReset) : StepEffect s s.afterTurn.assertReset

/-- Taking the turn alone is a quiet step. -/
theorem StepEffect.afterTurn (s : State) : StepEffect s s.afterTurn := .quiet s.replies s.draws

/-- The indexes of the four registers a host write changes, R11, R141. -/
theorem regSlot_writable (n : Fin 16) :
    (regSlot n = .width → n = 2) ∧ (regSlot n = .height → n = 3) ∧
      (regSlot n = .qin0 → n = 8) ∧ (regSlot n = .qin1 → n = 9) := by
  revert n
  decide

/-- A register write while idle that runs no command changes its own register or none. -/
theorem StepEffect.regWrite {s : State} {n : Fin 16} {v : Word}
    (hm : s.hostMoves (.regWrite n v)) (hb : s.status.busy = false) :
    StepEffect s (s.afterTurn.writeSlot v (regSlot n)) := by
  obtain ⟨hw, hh, h0, h1⟩ := regSlot_writable n
  cases hs : regSlot n with
  | width => exact .setWidth v (hw hs ▸ hm) hb
  | height => exact .setHeight v (hh hs ▸ hm) hb
  | qin0 => exact .setQin0 v (h0 hs ▸ hm) hb
  | qin1 => exact .setQin1 v (h1 hs ▸ hm) hb
  | _ => exact .afterTurn s

/-- The inversion of `step`, with each turn's effect written out. -/
theorem step_effect {s t : State} (h : step s = .next t) : StepEffect s t := by
  cases step_cases h with
  | ran hr hx => exact .ran hr hx
  | walkerIdle => exact .afterTurn s
  | regRead n => exact .quiet _ s.draws
  | regWriteBusy => exact .afterTurn s
  | regWrite n v hm hb => exact .regWrite hm hb
  | illegal n c e hm hb hn hd => exact .illegal c e (regSlot_eq_cmd.1 hn ▸ hm) hb hd
  | fbRead a =>
    obtain ⟨r, d, e⟩ := hostReadFb_eq s.afterTurn a
    rw [e]
    exact .quiet r d
  | obRead a =>
    obtain ⟨r, d, e⟩ := hostReadOb_eq s.afterTurn a
    rw [e]
    exact .quiet r d
  | fbWrite a b hm ha =>
    rcases hostWriteFb_cases s.afterTurn a b with ⟨-, e⟩ | ⟨hb, e⟩
    · rw [e]; exact .afterTurn s
    · rw [e]; exact .fbWrite a b hm hb ha
  | obWrite a b hm ha =>
    rcases hostWriteOb_cases s.afterTurn a b with ⟨-, e⟩ | ⟨hb, e⟩
    · rw [e]; exact .afterTurn s
    · rw [e]; exact .obWrite a b hm hb ha
  | reset hm => exact .reset hm

/-- The phase each micro-operation runs in, R79. -/
theorem State.microOpRuns.phase_cases {s : State} {i : Instr} (h : s.microOpRuns i) :
    (s.pc.phase = .clear ∧ i = .wclr) ∨ (s.pc.phase = .luma ∧ i = .wlq) ∨
      (s.pc.phase = .chroma ∧ i = .wcq) ∨ (s.pc.phase = .fin ∧ i = .wfin) := by
  have hd := h.2
  rw [decode_phase_code] at hd
  cases hp : s.pc.phase <;> rw [hp] at hd <;> cases hd <;> simp

/-- IDLE selects no micro-operation, R79. -/
theorem State.microOpRuns.phase_ne_idle {s : State} {i : Instr} (h : s.microOpRuns i) :
    s.pc.phase ≠ .idle := by
  rcases h.phase_cases with ⟨hp, -⟩ | ⟨hp, -⟩ | ⟨hp, -⟩ | ⟨hp, -⟩ <;> simp [hp]

/-- A micro-operation runs while BUSY. -/
theorem State.microOpRuns.busy {s : State} {i : Instr} (h : s.microOpRuns i)
    (hs : s.BusyMatchesPhase) : s.status.busy = true := hs.2 h.phase_ne_idle

/-! ### Instructions -/

section
variable {s t : State} {i : Instr}

/-- No instruction writes the parameters or a register the host alone writes. -/
theorem exec_keeps_hostRegisters (h : exec i s = .next t) :
    t.params = s.params ∧ t.width = s.width ∧ t.height = s.height ∧ t.qin0 = s.qin0 ∧
      t.qin1 = s.qin1 := by
  cases exec_cases h <;> exact ⟨rfl, rfl, rfl, rfl, rfl⟩

/-- No instruction writes FB. -/
theorem exec_keeps_fb (h : exec i s = .next t) : t.fb = s.fb := by
  cases exec_cases h <;> rfl

/-- QOUT is written by PACKL and PACKC alone. -/
theorem exec_qout_cases (h : exec i s = .next t) :
    (i = .packl ∨ i = .packc) ∨ (t.qout0 = s.qout0 ∧ t.qout1 = s.qout1) := by
  cases exec_cases h with
  | packl => exact .inl (.inl rfl)
  | packc => exact .inl (.inr rfl)
  | _ => exact .inr ⟨rfl, rfl⟩

/-- The size registers are written by FSIZE and CONVERT alone, on an accepted geometry. -/
theorem exec_sizes_cases (h : exec i s = .next t) :
    ((i = .fsize ∨ i = .convert) ∧ s.Accepted) ∨
      (t.lumaBytes = s.lumaBytes ∧ t.chromaBytes = s.chromaBytes ∧ t.outBytes = s.outBytes) := by
  cases exec_cases h with
  | fsizeOk ha => exact .inl ⟨.inl rfl, ha⟩
  | convertOk ha => exact .inl ⟨.inr rfl, ha⟩
  | _ => exact .inr ⟨rfl, rfl, rfl⟩

/-- The walker's position and OPTR are written by an accepted CONVERT and by the micro-operations
alone. -/
theorem exec_walker_cases (h : exec i s = .next t) :
    ((i = .convert ∧ s.Accepted) ∨ (i = .wclr ∨ i = .wlq ∨ i = .wcq ∨ i = .wfin)) ∨
      (t.pc = s.pc ∧ t.optr = s.optr) := by
  cases exec_cases h with
  | convertOk ha => exact .inl (.inl ⟨rfl, ha⟩)
  | wclr => exact .inl (.inr (.inl rfl))
  | wlq => exact .inl (.inr (.inr (.inl rfl)))
  | wcq => exact .inl (.inr (.inr (.inr (.inl rfl))))
  | wfin => exact .inl (.inr (.inr (.inr (.inr rfl))))
  | _ => exact .inr ⟨rfl, rfl⟩

/-- OB is written by WCLR, below OUT_BYTES, and by WLQ and WCQ, the five bytes at OPTR. -/
theorem exec_ob_cases (h : exec i s = .next t) :
    (i = .wclr ∧ s.outBytes.toNat ≤ s.params.obBytes ∧
        t.ob = s.ob.fill (fun _ => 0#8) s.outBytes.toNat) ∨
      ((i = .wlq ∨ i = .wcq) ∧ s.storeAddr + 5 ≤ s.params.obBytes ∧
        ∃ q : Quad, t.ob = memWrite s.ob s.storeAddr q 5) ∨
      t.ob = s.ob := by
  cases exec_cases h with
  | wclr ho => exact .inl ⟨rfl, ho, rfl⟩
  | wlq _ ho => exact .inr (.inl ⟨.inl rfl, ho, _, rfl⟩)
  | wcq _ ho => exact .inr (.inl ⟨.inr rfl, ho, _, rfl⟩)
  | _ => exact .inr (.inr rfl)

/-! ### Steps -/

/-- The parameters never change (R5), not even in a reset. -/
theorem step_keeps_params (h : step s = .next t) : t.params = s.params := by
  cases step_effect h with
  | ran _ hx => exact (exec_keeps_hostRegisters hx).1
  | _ => rfl

/-- A step changes FB only by an idle host write of one byte (R26, R145). -/
theorem step_fb_cases (h : step s = .next t) :
    (∃ a b, s.hostMoves (.fbWrite a b) ∧ s.status.busy = false ∧ a < s.params.fbBytes ∧
        t.fb = s.fb.write a b) ∨ t.fb = s.fb := by
  cases step_effect h with
  | ran _ hx => exact .inr ((exec_keeps_fb hx).trans s.afterTurn_fb)
  | fbWrite a b hm hb ha => exact .inl ⟨a, b, hm, hb, ha, rfl⟩
  | _ => exact .inr rfl

end

/-- What a step can leave in OB. -/
inductive ObEffect (s : State) : Memory → Prop where
  | same : ObEffect s s.ob
  | hostWrite (a : Nat) (b : Byte) (hm : s.hostMoves (.obWrite a b)) (hb : s.status.busy = false)
    (ha : a < s.params.obBytes) : ObEffect s (s.ob.write a b)
  | cleared (hr : s.microOpRuns .wclr) (ho : s.outBytes.toNat ≤ s.params.obBytes) :
    ObEffect s (s.ob.fill (fun _ => 0#8) s.outBytes.toNat)
  | quad (hr : s.microOpRuns .wlq ∨ s.microOpRuns .wcq) (q : Quad)
    (ho : s.storeAddr + 5 ≤ s.params.obBytes) : ObEffect s (memWrite s.ob s.storeAddr q 5)
  | reset (hm : s.hostMoves .assertReset) : ObEffect s s.obAfterReset

/-- The inversion of `step` as far as OB goes. -/
theorem step_ob {s t : State} (h : step s = .next t) : ObEffect s t.ob := by
  cases step_effect h with
  | ran hr hx =>
    rcases exec_ob_cases hx with ⟨rfl, ho, e⟩ | ⟨hi, ho, q, e⟩ | e <;> rw [e]
    · exact .cleared (hr.microOp (.inl rfl)) ho
    · refine .quad ?_ q ho
      rcases hi with rfl | rfl
      · exact .inl (hr.microOp (.inr (.inl rfl)))
      · exact .inr (hr.microOp (.inr (.inr (.inl rfl))))
    · exact .same
  | obWrite a b hm hb ha => exact .hostWrite a b hm hb ha
  | reset hm => exact .reset hm
  | _ => exact .same

end Sys2Proof.Machine
end

section
/-! The two memories: their canonical form, and which steps change a byte of FB or OB
(10_state.md R26, R27). -/

namespace Sys2Proof.Machine

/-- A memory in canonical form that lists only addresses below a capacity, the form `MemoriesWf`
asks of both spaces. -/
def Memory.Within (m : Memory) (cap : Nat) : Prop := m.wf ∧ ∀ c ∈ m, c.1 < cap

theorem memoriesWf_iff {s : State} :
    s.MemoriesWf ↔ s.fb.Within s.params.fbBytes ∧ s.ob.Within s.params.obBytes := Iff.rfl

namespace Memory.Within

variable {m : Memory} {cap : Nat}

theorem write (h : m.Within cap) {a : Nat} (ha : a < cap) (b : Byte) :
    (m.write a b).Within cap := by
  refine ⟨Memory.wf_write h.1 a b, fun c hc => ?_⟩
  rcases Memory.mem_write hc with rfl | hc
  · exact ha
  · exact h.2 c hc

theorem fill (h : m.Within cap) (f : Nat → Byte) {n : Nat} (hn : n ≤ cap) :
    (m.fill f n).Within cap := by
  refine ⟨Memory.wf_fill h.1 f n, fun c hc => ?_⟩
  rcases Memory.mem_fill hc with hc | hc
  · exact Nat.lt_of_lt_of_le hc hn
  · exact h.2 c hc

theorem memWrite {w : Nat} (h : m.Within cap) {a n : Nat} (hn : a + n ≤ cap) (v : BitVec w) :
    (memWrite m a v n).Within cap := by
  refine ⟨wf_memWrite h.1 a v n, fun c hc => ?_⟩
  rcases mem_memWrite hc with hc | hc
  · exact Nat.lt_of_lt_of_le hc hn
  · exact h.2 c hc

end Memory.Within

/-- A reset draws OB bytes below OB_BYTES alone. -/
theorem obAfterReset_within {s : State} (h : s.ob.Within s.params.obBytes) :
    s.obAfterReset.Within s.params.obBytes := by
  unfold State.obAfterReset
  split
  · exact h.fill _ (Nat.min_le_right _ _)
  · exact h

/-- A reset leaves every byte of OB while idle, and the bytes at and above OUT_BYTES while BUSY. -/
theorem lookup_obAfterReset {s : State} {a : Nat}
    (h : s.status.busy = true → s.outBytes.toNat ≤ a) :
    s.obAfterReset.lookup a = s.ob.lookup a := by
  unfold State.obAfterReset
  split
  · next hb =>
    have : ¬a < min s.outBytes.toNat s.params.obBytes := by have := h hb; omega
    rw [Memory.lookup_fill, if_neg this]
  · rfl

/-- Settles O30: each of the writes a step can make (`step_fb_cases`, `step_ob`) keeps a memory
canonical and within its capacity. -/
theorem stepKeepsMemoriesCanonical : Obligations.StepKeepsMemoriesCanonical := by
  intro s t hs h
  obtain ⟨hfb, hob⟩ := memoriesWf_iff.1 hs
  rw [memoriesWf_iff, step_keeps_params h]
  refine ⟨?_, ?_⟩
  · rcases step_fb_cases h with ⟨a, b, -, -, ha, e⟩ | e <;> rw [e]
    · exact hfb.write ha b
    · exact hfb
  · have hstep := step_ob h
    generalize t.ob = m at hstep ⊢
    cases hstep with
    | same => exact hob
    | hostWrite a b _ _ ha => exact hob.write ha b
    | cleared _ ho => exact hob.fill _ ho
    | quad _ q ho => exact hob.memWrite ho q
    | reset => exact obAfterReset_within hob

/-- Settles O31: the one step that writes FB is the idle host's, and its write leaves every other
address (`Memory.lookup_write`). -/
theorem fbChangesOnlyByIdleHostWrite : Obligations.FbChangesOnlyByIdleHostWrite := by
  intro s t x h hx
  rcases step_fb_cases h with ⟨a, b, hm, hb, -, e⟩ | e
  · have hxa : t.fbByte x = if x = a then b else s.fbByte x := by
      rw [State.fbByte_congr (t := { s with fb := s.fb.write a b }) e, State.fbByte_write]
    by_cases ha : x = a
    · rw [hxa, if_pos ha, ha]
      exact ⟨hb, hm⟩
    · exact absurd (hxa.trans (if_neg ha)) hx
  · exact absurd (congrFun (State.fbByte_congr e) x) hx

/-! ### Under the invariant a quad is stored below OUT_BYTES -/

/-- An accepted frame's luma section is its luma quads of five bytes each, its chroma section the
chroma quads. -/
theorem sizes_eq_quads {p : Params} {w h : Nat} (hp : p.wf) (hg : geomCheck p w h = .ok) :
    lumaSize w h = 5 * lumaQuads w h ∧ outSize w h = lumaSize w h + 5 * chromaQuads w h := by
  obtain ⟨a, b, -, -, -, -, -, hl, -, ho, hlq, hcq, -⟩ := accepted_sizes hp hg
  omega

/-- WLQ and WCQ store their quad below OUT_BYTES (R46, R120). -/
theorem storeAddr_lt_outBytes {s : State} (hs : s.Inv)
    (hr : s.microOpRuns .wlq ∨ s.microOpRuns .wcq) : s.storeAddr + 5 ≤ s.outBytes.toNat := by
  have hpos := hs.position
  rw [State.storeAddr]
  rcases hr with hr | hr
  · have hp : s.pc.phase = .luma := by simpa using hr.phase_cases
    simp only [State.PositionInv, hp] at hpos
    obtain ⟨ha, ⟨-, -, ho⟩, h1, h2, h3, h4⟩ := hpos
    obtain ⟨-, hlt, -⟩ := luma_next hs.params ha h1 h2 h3 h4
    obtain ⟨hl, hout⟩ := sizes_eq_quads hs.params ha
    omega
  · have hp : s.pc.phase = .chroma := by simpa using hr.phase_cases
    simp only [State.PositionInv, hp] at hpos
    obtain ⟨ha, ⟨-, -, ho⟩, h1, h2, h3, h4⟩ := hpos
    obtain ⟨-, hlt, -⟩ := chroma_next hs.params ha h1 h2 h3 h4
    obtain ⟨-, hout⟩ := sizes_eq_quads hs.params ha
    omega

/-- Settles O32: every writer of OB (`step_ob`) other than the idle host leaves the bytes at and
above OUT_BYTES, for WLQ and WCQ by `storeAddr_lt_outBytes`. -/
theorem obChangesOnlyByIdleHostOrBelowOutBytes :
    Obligations.ObChangesOnlyByIdleHostOrBelowOutBytes := by
  intro s t x hs h hx
  have hob := step_ob h
  simp only [State.obByte] at hx ⊢
  generalize t.ob = m at hob hx
  cases hob with
  | same => exact absurd rfl hx
  | hostWrite a b hm hb =>
    rw [Memory.lookup_write] at hx ⊢
    by_cases ha : x = a
    · rw [if_pos ha, ha]
      exact .inl ⟨hb, hm⟩
    · exact absurd (by rw [if_neg ha]) hx
  | cleared hr =>
    refine .inr ⟨hr.busy hs.busy, ?_, .inl hr⟩
    by_contra hlt
    exact hx (by rw [Memory.lookup_fill, if_neg hlt])
  | quad hr q =>
    have hle := storeAddr_lt_outBytes hs hr
    refine .inr ⟨hr.elim (·.busy hs.busy) (·.busy hs.busy), ?_, .inr (or_assoc.1 (.inl hr))⟩
    by_contra hlt
    exact hx (by rw [memWrite_lookup, if_neg (by omega)])
  | reset hm =>
    have hchange : s.status.busy = true ∧ x < s.outBytes.toNat := by
      by_contra hc
      exact hx (by rw [lookup_obAfterReset fun hb => Nat.le_of_not_lt fun hl => hc ⟨hb, hl⟩])
    exact .inr ⟨hchange.1, hchange.2, .inr (.inr (.inr hm))⟩

end Sys2Proof.Machine
end

section
/-! STATUS and the registers over a step: which steps set or clear each field (10_state.md R12 to
R24), and BUSY against PHASE (R17). -/

namespace Sys2Proof.Machine

section
variable (f : Status) (c d : CommandFault)

@[simp] theorem Status.hasFault_accumulateTrunc (t : Bool) :
    (f.accumulateTrunc t).hasFault c = f.hasFault c := by cases c <;> rfl
@[simp] theorem Status.hasFault_clearDone : f.clearDone.hasFault c = f.hasFault c := by
  cases c <;> rfl
@[simp] theorem Status.hasFault_setBusy : f.setBusy.hasFault c = f.hasFault c := by cases c <;> rfl
@[simp] theorem Status.hasFault_finish : f.finish.hasFault c = f.hasFault c := by cases c <;> rfl
@[simp] theorem Status.hasFault_setFault :
    (f.setFault d).hasFault c = (f.hasFault c || decide (d = c)) := by
  cases c <;> simp [Status.hasFault]

end

/-- What a step can leave in STATUS, and what makes it do so. -/
inductive StatusEffect (s : State) : Status → Prop where
  | same : StatusEffect s s.status
  | accumulated (t : Bool)
    (hr : s.commandRuns .packl ∨ s.commandRuns .packc ∨ s.microOpRuns .wlq ∨ s.microOpRuns .wcq) :
    StatusEffect s (s.status.accumulateTrunc t)
  | fsizeInvalid (hr : s.commandRuns .fsize)
    (hv : geomCheck s.params s.w s.h = .invalidGeometry) :
    StatusEffect s (s.status.setFault .invalidGeometry)
  | fsizeCapacity (hr : s.commandRuns .fsize) (hv : geomCheck s.params s.w s.h = .capacity) :
    StatusEffect s (s.status.setFault .capacity)
  | convertInvalid (hr : s.commandRuns .convert)
    (hv : geomCheck s.params s.w s.h = .invalidGeometry) :
    StatusEffect s (s.status.clearDone.setFault .invalidGeometry)
  | convertCapacity (hr : s.commandRuns .convert) (hv : geomCheck s.params s.w s.h = .capacity) :
    StatusEffect s (s.status.clearDone.setFault .capacity)
  | convertOk (hr : s.commandRuns .convert) (ha : s.Accepted) :
    StatusEffect s s.status.clearDone.setBusy
  | cleared (hr : s.commandRuns .clrst) : StatusEffect s s.status.clearSticky
  | finished (hr : s.microOpRuns .wfin) : StatusEffect s s.status.finish
  | illegal (c : Word) (e : DecodeError) (hm : s.hostMoves (.regWrite 0 c))
    (hb : s.status.busy = false) (hd : decode (.cmdw c) = .error e) :
    StatusEffect s (s.status.setFault .illegalCommand)
  | reset (hm : s.hostMoves .assertReset) : StatusEffect s Status.cleared

/-- The cause of each instruction's write to STATUS (R97, R98, R113 to R118, R144). -/
theorem exec_status {s t : State} {i : Instr} (hr : s.runs i)
    (hx : exec i s.afterTurn = .next t) : StatusEffect s t.status := by
  cases exec_cases hx with
  | nop => exact .same
  | packl => exact .accumulated _ (.inl (hr.command (by simp)))
  | packc => exact .accumulated _ (.inr (.inl (hr.command (by simp))))
  | fsizeOk => exact .same
  | fsizeInvalid hv => exact .fsizeInvalid (hr.command (by simp)) hv
  | fsizeCapacity hv => exact .fsizeCapacity (hr.command (by simp)) hv
  | convertOk ha => exact .convertOk (hr.command (by simp)) ha
  | convertInvalid hv => exact .convertInvalid (hr.command (by simp)) hv
  | convertCapacity hv => exact .convertCapacity (hr.command (by simp)) hv
  | clrst => exact .cleared (hr.command (by simp))
  | wclr => exact .same
  | wlq => exact .accumulated _ (.inr (.inr (.inl (hr.microOp (by simp)))))
  | wcq => exact .accumulated _ (.inr (.inr (.inr (hr.microOp (by simp)))))
  | wfin => exact .finished (hr.microOp (by simp))

/-- The cause of a step's write to STATUS. -/
theorem step_status {s t : State} (h : step s = .next t) : StatusEffect s t.status := by
  cases step_effect h with
  | ran hr hx => exact exec_status hr hx
  | illegal c e hm hb hd => exact .illegal c e hm hb hd
  | reset hm => exact .reset hm
  | _ => exact .same

/-- Settles O33: for each cause a step has to write STATUS (`step_status`), the fields it sets and
clears are those the table gives it. -/
theorem statusFieldsChangeOnlyAsTabled : Obligations.StatusFieldsChangeOnlyAsTabled := by
  intro s t h
  have hst := step_status h
  generalize t.status = st at hst ⊢
  cases hst with
  | same => simp +contextual
  | accumulated t hr => simp +contextual [hr]
  | fsizeInvalid hr hv => simp +contextual [hr, hv]
  | fsizeCapacity hr hv => simp +contextual [hr, hv]
  | convertInvalid hr hv => simp +contextual [hr, hv]
  | convertCapacity hr hv => simp +contextual [hr, hv]
  | convertOk hr ha => simpa +contextual [hr] using fun _ => ha
  | cleared hr => simp +contextual [hr]
  | finished hr => simp +contextual [hr]
  | illegal c e hm hb hd =>
    have hword : ∃ c, s.hostMoves (.regWrite 0 c) ∧ ∃ e, decode (.cmdw c) = .error e :=
      ⟨c, hm, e, hd⟩
    simp +contextual [hb, hword]
  | reset hm => simp +contextual [hm, Status.cleared]

/-- What an instruction that runs can change of the registers, by its writers. -/
theorem runs_registers {s t : State} {i : Instr} (hr : s.runs i)
    (hx : exec i s.afterTurn = .next t) :
    (t.qout0 ≠ s.qout0 ∨ t.qout1 ≠ s.qout1 → s.commandRuns .packl ∨ s.commandRuns .packc) ∧
    (t.lumaBytes ≠ s.lumaBytes ∨ t.chromaBytes ≠ s.chromaBytes ∨ t.outBytes ≠ s.outBytes →
      (s.commandRuns .fsize ∨ s.commandRuns .convert) ∧ s.Accepted) ∧
    (t.pc ≠ s.pc ∨ t.optr ≠ s.optr →
      (s.commandRuns .convert ∧ s.Accepted) ∨ s.microOpRuns .wclr ∨ s.microOpRuns .wlq ∨
        s.microOpRuns .wcq ∨ s.microOpRuns .wfin) := by
  refine ⟨fun hq => ?qout, fun hz => ?sizes, fun hw => ?walker⟩
  case qout =>
    rcases exec_qout_cases hx with (rfl | rfl) | ⟨e0, e1⟩
    · exact .inl (hr.command (by simp))
    · exact .inr (hr.command (by simp))
    · exact hq.elim (absurd e0) (absurd e1)
  case sizes =>
    rcases exec_sizes_cases hx with ⟨rfl | rfl, ha⟩ | ⟨el, ec, eo⟩
    · exact ⟨.inl (hr.command (by simp)), ha⟩
    · exact ⟨.inr (hr.command (by simp)), ha⟩
    · exact hz.elim (absurd el) (Or.elim · (absurd ec) (absurd eo))
  case walker =>
    rcases exec_walker_cases hx with (⟨rfl, ha⟩ | hi) | ⟨ep, eo⟩
    · exact .inl ⟨hr.command (by simp), ha⟩
    · have hm := hr.microOp hi
      rcases hi with rfl | rfl | rfl | rfl <;> simp [hm]
    · exact hw.elim (absurd ep) (absurd eo)

/-- Settles O34: by the effect of the step; where an instruction runs, by its writers
(`runs_registers`), and no instruction writes the host's own registers. -/
theorem registersChangeOnlyByTheirWriters : Obligations.RegistersChangeOnlyByTheirWriters := by
  intro s t h hreset
  cases step_effect h with
  | ran hr hx =>
    obtain ⟨hp, hw, hh, h0, h1⟩ := exec_keeps_hostRegisters hx
    exact ⟨hp, absurd hw, absurd hh, absurd h0, absurd h1, runs_registers hr hx⟩
  | setWidth v hm hb => simpa [hb] using fun _ => ⟨v, hm⟩
  | setHeight v hm hb => simpa [hb] using fun _ => ⟨v, hm⟩
  | setQin0 v hm hb => simpa [hb] using fun _ => ⟨v, hm⟩
  | setQin1 v hm hb => simpa [hb] using fun _ => ⟨v, hm⟩
  | reset hm => exact absurd hm hreset
  | _ => simp

/-! ### BUSY and PHASE -/

/-- WLQ leaves the walker in LUMA or CHROMA. -/
theorem afterLuma_phase_ne_idle (s : State) : s.afterLuma.phase ≠ .idle := by
  unfold State.afterLuma
  split_ifs <;> simp

/-- WCQ leaves the walker in CHROMA or FIN. -/
theorem afterChroma_phase_ne_idle (s : State) : s.afterChroma.phase ≠ .idle := by
  unfold State.afterChroma
  split_ifs <;> simp

/-- CONVERT and WFIN move BUSY and PHASE together; the other micro-operations run while BUSY and
lead to no IDLE. -/
theorem runs_keeps_busyMatchesPhase {s t : State} {i : Instr} (hs : s.BusyMatchesPhase)
    (hr : s.runs i) (hx : exec i s.afterTurn = .next t) : t.BusyMatchesPhase := by
  cases exec_cases hx with
  | convertOk => exact iff_of_true rfl (by simp)
  | wclr => exact iff_of_true ((hr.microOp (by simp)).busy hs) (by simp)
  | wlq => exact iff_of_true ((hr.microOp (by simp)).busy hs) (afterLuma_phase_ne_idle _)
  | wcq => exact iff_of_true ((hr.microOp (by simp)).busy hs) (afterChroma_phase_ne_idle _)
  | wfin => exact iff_of_false (by simp) (by simp)
  | _ => exact hs

/-- Settles O36: an instruction keeps BUSY and PHASE together (`runs_keeps_busyMatchesPhase`), reset
clears both, and no other turn writes either. -/
theorem stepKeepsBusyMatchingPhase : Obligations.StepKeepsBusyMatchingPhase := by
  intro s t hs h
  cases step_effect h with
  | ran hr hx => exact runs_keeps_busyMatchesPhase hs hr hx
  | reset => exact iff_of_false (by simp [Status.cleared]) (by simp)
  | _ => exact hs

/-- Settles O38: after reset STATUS is cleared, the walker is idle at (0, 0) and both memories are
empty, and the parameters `State.reset` carries are within R5's bounds. -/
theorem resetMeetsTheInvariant : Obligations.ResetMeetsTheInvariant := by
  have inv_resetWith : ∀ p : Params, p.wf → (State.resetWith p).Inv := fun p hp =>
    { params := hp
      memories := ⟨⟨.nil, nofun⟩, .nil, nofun⟩
      busy := iff_of_false (by simp [State.resetWith, Status.cleared]) (by simp [State.resetWith])
      done := fun _ => rfl
      position := ⟨rfl, rfl⟩ }
  exact ⟨inv_resetWith, inv_resetWith _ (by decide)⟩

end Sys2Proof.Machine
end

section
/-! The quad port's byte lanes and the host's reads (10_state.md R21, R22, R31). -/

namespace Sys2Proof.Machine

/-- Byte `k` of the port's block is byte `k` of QIN0, or byte `k - 4` of QIN1, R21. -/
theorem extract_portBlock (s : State) {k : Nat} (hk : k < 8) :
    s.portBlock.extractLsb' (8 * k) 8 =
      if k < 4 then s.qin0.extractLsb' (8 * (k % 4)) 8
      else s.qin1.extractLsb' (8 * (k % 4)) 8 := by
  rw [State.portBlock]
  split
  · rw [BitVec.extractLsb'_append_eq_of_add_le (by omega), show k % 4 = k by omega]
  · rw [BitVec.extractLsb'_append_eq_of_le (by omega), show 8 * k - 32 = 8 * (k % 4) by omega]

/-- Settles O16: the lanes of the appended block, and `gather_portBlock`. -/
theorem quadPortLanes : Obligations.QuadPortLanes := fun s =>
  ⟨fun _ hk => extract_portBlock s hk, gather_portBlock s⟩

/-- QOUT0 and QOUT1 as the host reads them, R11, R22. -/
theorem readReg_qout (s : State) :
    s.readReg 10 = s.qout0 ∧ s.readReg 11 = s.qout1.setWidth 32 := ⟨rfl, rfl⟩

/-- Settles O18: QOUT0 is the quad's low word and QOUT1 its top byte (`packPort_qout0`,
`packPort_qout1`), so their lanes are the quad's bytes. -/
theorem qoutHoldsTheFiveBytes : Obligations.QoutHoldsTheFiveBytes := by
  intro s t k h
  obtain rfl : t = packPort k s := by cases k <;> cases h <;> rfl
  obtain ⟨h0, h1⟩ := readReg_qout (packPort k s)
  rw [h0, h1, State.packPort_qout0, State.packPort_qout1]
  refine ⟨fun n hn => ?_, ?_, ?_⟩
  · rw [BitVec.extractLsb'_extractLsb'_of_le (by omega), quadByte]
  · rw [BitVec.extractLsb'_setWidth_of_le (by omega), BitVec.extractLsb'_eq_self]
    rfl
  · refine BitVec.eq_of_getLsbD_eq fun i hi => ?_
    simp

/-- A host read that answers a next state leaves a reply and at most a draw (R140, R145). -/
theorem step_read_quiet {s t : State} {h : HostAccess} (hm : s.hostMoves h)
    (hread : (∃ n, h = .regRead n) ∨ (∃ a, h = .fbRead a) ∨ (∃ a, h = .obRead a))
    (hs : step s = .next t) : ∃ r d, t = { s.afterTurn with replies := r, draws := d } := by
  rw [step, fetch_of_hostMoves hm] at hs
  rcases hread with ⟨n, rfl⟩ | ⟨a, rfl⟩ | ⟨a, rfl⟩ <;> simp only [fetchHost] at hs
  · cases hs
    exact ⟨_, s.draws, rfl⟩
  · split at hs <;> cases hs
    exact hostReadFb_eq _ a
  · split at hs <;> cases hs
    exact hostReadOb_eq _ a

/-- Settles O8: the reply and the draw are all a read leaves behind (`step_read_quiet`). -/
theorem hostReadsHaveNoSideEffect : Obligations.HostReadsHaveNoSideEffect := by
  intro s t h hm hs hread
  obtain ⟨r, d, rfl⟩ := step_read_quiet hm hread hs
  rfl

end Sys2Proof.Machine
end

section
/-! Byte addresses outside a space: the host's access is refused (20_memory.md R52, U13), the
walker's stops (log entry 8), and under the invariant the walker makes none (41_frame_codec.md
R120). -/

namespace Sys2Proof.Machine

/-- A host's turn that runs no instruction answers its own outcome. -/
theorem step_of_fetchHost_done {s : State} {h : HostAccess} {o : Host.Outcome State Fault Refusal}
    (hm : s.hostMoves h) (hf : fetchHost h s.afterTurn = .done o) : step s = o := by
  rw [step, fetch_of_hostMoves hm, hf]

/-- Settles O9: `fetchHost` compares the address with the capacity before it looks at BUSY. -/
theorem inexpressibleAddressIsRefused : Obligations.InexpressibleAddressIsRefused := by
  intro s a b
  refine ⟨fun ha hm => ?fb, fun ha hm => ?ob⟩
  case fb =>
    have hge : ¬a < s.afterTurn.params.fbBytes := Nat.not_lt.2 ha
    rcases hm with hm | hm <;>
      exact step_of_fetchHost_done hm (congrArg Fetched.done (if_neg hge))
  case ob =>
    have hge : ¬a < s.afterTurn.params.obBytes := Nat.not_lt.2 ha
    rcases hm with hm | hm <;>
      exact step_of_fetchHost_done hm (congrArg Fetched.done (if_neg hge))

/-- Settles O28: the tests of `execWclr_eq`, `execWlq_eq` and `execWcq_eq`, FB's before OB's. -/
theorem walkerAccessOutsideItsSpaceFaults : Obligations.WalkerAccessOutsideItsSpaceFaults := by
  intro s
  have hwclr : exec .wclr s = execWclr s := rfl
  have hwlq : exec .wlq s = execWlq s := rfl
  have hwcq : exec .wcq s = execWcq s := rfl
  rw [hwclr, hwlq, hwcq, execWclr_eq, execWlq_eq, execWcq_eq]
  refine ⟨fun ho => ?wclr, fun hf => ?wlqFb, fun hf ho => ?wlqOb, fun hf => ?wcqFb,
    fun hu hv ho => ?wcqOb⟩
  case wclr => rw [if_neg (by omega)]
  case wlqFb => rw [if_neg (by omega)]
  case wlqOb => rw [if_pos hf, if_neg (by omega)]
  case wcqFb => rw [if_neg (by omega)]
  case wcqOb => rw [if_pos ⟨hu, hv⟩, if_neg (by omega)]

/-- While the walker is not IDLE the geometry is an accepted one and the size registers hold its
sizes (R120). -/
theorem State.Inv.accepted_of_phase_ne_idle {s : State} (hs : s.Inv) (hp : s.pc.phase ≠ .idle) :
    s.Accepted ∧ s.SizesMatch := by
  have hpos := hs.position
  unfold State.PositionInv at hpos
  split at hpos
  · next h => exact absurd h hp
  all_goals exact ⟨hpos.1, hpos.2.1⟩

/-- Luma quad `lumaIndex / 4` is one of the frame's: it lies in the Y plane, and its five bytes in
the luma section of the output (R116, R120). -/
theorem State.Inv.luma_within {s : State} (hs : s.Inv) (hp : s.pc.phase = .luma) :
    s.lumaAddr + 8 ≤ 3 * s.w * s.h ∧ s.storeAddr + 5 ≤ outSize s.w s.h := by
  have hpos := hs.position
  simp only [State.PositionInv, hp] at hpos
  obtain ⟨ha, -, hcol, hrow, hcolw, hoptr⟩ := hpos
  obtain ⟨hmod, hlt, -⟩ := luma_next hs.params ha hcol hrow hcolw hoptr
  obtain ⟨hl, ho⟩ := sizes_eq_quads hs.params ha
  obtain ⟨a, b, -, -, -, -, -, -, -, -, hlq, -, -, -, -, -, -, hframe⟩ :=
    accepted_sizes hs.params ha
  simp only [State.lumaAddr, addrY, yOff, State.storeAddr]
  omega

/-- Chroma quad `chromaIndex / 2` is one of the frame's: its chunks lie in the U and the V plane,
and its five bytes in the chroma section of the output (R117, R120). -/
theorem State.Inv.chroma_within {s : State} (hs : s.Inv) (hp : s.pc.phase = .chroma) :
    s.uAddr + 4 ≤ 3 * s.w * s.h ∧ s.vAddr + 4 ≤ 3 * s.w * s.h ∧
      s.storeAddr + 5 ≤ outSize s.w s.h := by
  have hpos := hs.position
  simp only [State.PositionInv, hp] at hpos
  obtain ⟨ha, -, hcol, hrow, hcolw, hoptr⟩ := hpos
  obtain ⟨hmod, hlt, -⟩ := chroma_next hs.params ha hcol hrow hcolw hoptr
  obtain ⟨-, ho⟩ := sizes_eq_quads hs.params ha
  obtain ⟨a, b, -, -, -, -, -, -, -, -, -, hcq, -, -, -, hu, hv, hframe⟩ :=
    accepted_sizes hs.params ha
  simp only [State.uAddr, State.vAddr, addrU, addrV, State.storeAddr]
  omega

/-- Settles O41: the quad the walker stands at is one of the frame's (`luma_within`,
`chroma_within`), and the frame of an accepted geometry fits the memories (R111). -/
theorem walkerStaysInsideTheFrame : Obligations.WalkerStaysInsideTheFrame := by
  intro s hs
  have sizes : s.pc.phase ≠ .idle →
      outSize s.w s.h = s.outBytes.toNat ∧ 3 * s.w * s.h ≤ s.params.fbBytes ∧
        outSize s.w s.h ≤ s.params.obBytes := fun hp => by
    obtain ⟨ha, -, -, ho⟩ := hs.accepted_of_phase_ne_idle hp
    obtain ⟨a, b, -, -, -, -, -, -, -, hout, -, -, -, hob, -⟩ := accepted_sizes hs.params ha
    obtain ⟨-, hfb, -⟩ := geomCheck_ok.1 ha
    exact ⟨ho.symm, hfb, hout ▸ hob⟩
  refine ⟨fun hp => ?luma, fun hp => ?chroma, fun hp => ?spaces⟩
  case luma =>
    rw [← (sizes (by simp [hp])).1]
    exact hs.luma_within hp
  case chroma =>
    rw [← (sizes (by simp [hp])).1]
    exact hs.chroma_within hp
  case spaces =>
    obtain ⟨ho, hfb, hob⟩ := sizes hp
    exact ⟨hfb, ho ▸ hob⟩

end Sys2Proof.Machine
end

section
/-! Several bytes at once: the little-endian reads and writes of FB and OB (00_scope.md R7,
20_memory.md R41 to R43), and wide transfers as one byte access after another (R51). -/

namespace Sys2Proof.Machine

/-! ### MemRead and MemWrite -/

/-- A read of bytes that are a value's own, lowest first, is that value (R7). -/
theorem memRead_of_bytes {rd : Nat → Byte} {a n : Nat} {v : BitVec (8 * n)}
    (h : ∀ k, k < n → rd (a + k) = v.extractLsb' (8 * k) 8) : memRead rd a n = v := by
  refine BitVec.eq_of_getLsbD_eq fun i hi => ?_
  rw [memRead_getLsbD, h (i / 8) (by omega), BitVec.getLsbD_extractLsb']
  simp [hi, show i % 8 < 8 by omega, show 8 * (i / 8) + i % 8 = i by omega]

/-- A two-byte read has the upper byte on top (R7). -/
theorem memRead_two (rd : Nat → Byte) (a : Nat) : memRead rd a 2 = rd (a + 1) ++ rd a := by
  refine memRead_of_bytes fun k hk => ?_
  obtain rfl | rfl : k = 0 ∨ k = 1 := by omega
  · rw [BitVec.extractLsb'_append_eq_of_add_le (by omega), BitVec.extractLsb'_eq_self]
    rfl
  · rw [BitVec.extractLsb'_append_eq_of_le (by omega)]
    exact BitVec.extractLsb'_eq_self.symm

/-- The byte of OB at an address after a multi-byte write. -/
theorem State.obByte_writeOb {w : Nat} {s t : State} {a n : Nat} {v : BitVec w}
    (h : s.writeOb a v n = some t) (x : Nat) :
    t.obByte x =
      if a ≤ x ∧ x < a + n then v.extractLsb' (8 * (x - a)) 8 else s.obByte x := by
  obtain ⟨-, rfl⟩ := State.writeOb_eq_some.1 h
  rw [State.obByte, memWrite_lookup]
  split <;> rfl

/-- The value of a stored sample is the low ten bits of its two bytes. -/
theorem sampleValue_append (hi lo : Byte) :
    sampleValue (hi ++ lo) = hi.extractLsb' 0 2 ++ lo := by
  refine BitVec.eq_of_getLsbD_eq fun i hi10 => ?_
  rw [sampleValue_getLsbD, BitVec.getLsbD_append, BitVec.getLsbD_append,
    BitVec.getLsbD_extractLsb']
  by_cases hi8 : i < 8
  · simp [hi8, hi10]
  · simp [hi8, hi10, show i - 8 < 2 by omega]

/-- Settles O29: `memRead_two` for a stored sample; for a quad the five bytes `writeOb` leaves
(`State.obByte_writeOb`) are its own, so they read back as it (`memRead_of_bytes`). -/
theorem storageIsLittleEndian : Obligations.StorageIsLittleEndian := by
  refine ⟨fun s a => ?sample, fun s t a q h => ?quad⟩
  case sample =>
    have hs : s.storedSample a = s.fbByte (a + 1) ++ s.fbByte a := memRead_two ..
    rw [hs]
    exact ⟨rfl, sampleValue_append ..⟩
  case quad =>
    have hbytes : ∀ n, n < 5 → t.obByte (a + n) = quadByte q n := fun n hn => by
      rw [State.obByte_writeOb h, if_pos (by omega), Nat.add_sub_cancel_left, quadByte]
    refine ⟨memRead_of_bytes hbytes, hbytes, fun x hx => ?_, ?_⟩
    · rw [State.obByte_writeOb h, if_neg (by omega)]
    · obtain ⟨-, rfl⟩ := State.writeOb_eq_some.1 h
      rfl

/-! ### Transfers one byte at a time -/

/-- A run of at least one step that goes on takes its first step and runs on from there. -/
theorem step_of_run_succ {s t : State} {k : Nat} (h : Sys2Proof.core.run (k + 1) s = .next t) :
    ∃ u, step s = .next u ∧ Sys2Proof.core.run k u = .next t := by
  simp only [Host.Core.run] at h
  split at h
  · next u hs => exact ⟨u, hs, h⟩
  · cases h
  · cases h

/-- A run of one step more, after a run that goes on. -/
theorem run_snoc {s t u : State} {k : Nat} (hr : Sys2Proof.core.run k s = .next t)
    (h : step t = .next u) : Sys2Proof.core.run (k + 1) s = .next u := by
  induction k generalizing s with
  | zero =>
    cases hr
    exact run_succ h 0
  | succ k ih =>
    obtain ⟨s', hs, hr⟩ := step_of_run_succ hr
    rw [run_succ hs]
    exact ih hr

/-- The model's own record, of the turns to come and of what was read, is no part of a space. -/
@[simp] theorem State.capacity_withRecord (s : State) (ts : List Turn) (rs : List Reply) (d : Nat)
    (S : Space) :
    ({ s with turns := ts, replies := rs, draws := d } : State).capacity S = s.capacity S := by
  cases S <;> rfl

@[simp] theorem State.spaceByte_withRecord (s : State) (ts : List Turn) (rs : List Reply)
    (d : Nat) (S : Space) :
    ({ s with turns := ts, replies := rs, draws := d } : State).spaceByte S = s.spaceByte S := by
  cases S <;> rfl

theorem turnsLoad_concat (S : Space) (a : Nat) (bs : List Byte) (b : Byte) :
    turnsLoad S a (bs ++ [b]) = turnsLoad S a bs ++ [turnWrite S (a + bs.length) b] := by
  induction bs generalizing a with
  | nil => rfl
  | cons c bs ih => simp [turnsLoad, ih, Nat.add_assoc, Nat.add_comm 1]

theorem turnsDump_concat (S : Space) (a n : Nat) :
    turnsDump S a (n + 1) = turnsDump S a n ++ [turnRead S (a + n)] := by
  induction n generalizing a with
  | zero => rfl
  | succ n ih =>
    rw [turnsDump, ih, turnsDump, List.cons_append, Nat.add_assoc, Nat.add_comm 1]

/-- What something has written of a space. -/
def State.space (s : State) : Space → Memory
  | .fb => s.fb
  | .ob => s.ob

/-- The state with the coming turns and the bytes of one space replaced. -/
def State.withSpace (s : State) (ts : List Turn) (S : Space) (m : Memory) : State :=
  match S with
  | .fb => { s with turns := ts, fb := m }
  | .ob => { s with turns := ts, ob := m }

@[simp] theorem State.withSpace_turns (s : State) (ts : List Turn) (S : Space) (m : Memory) :
    (s.withSpace ts S m).turns = ts := by
  cases S <;> rfl

@[simp] theorem State.withSpace_status (s : State) (ts : List Turn) (S : Space) (m : Memory) :
    (s.withSpace ts S m).status = s.status := by
  cases S <;> rfl

@[simp] theorem State.withSpace_capacity (s : State) (ts : List Turn) (S S' : Space)
    (m : Memory) : (s.withSpace ts S m).capacity S' = s.capacity S' := by
  cases S <;> rfl

@[simp] theorem State.space_withSpace (s : State) (ts : List Turn) (S : Space) (m : Memory) :
    (s.withSpace ts S m).space S = m := by
  cases S <;> rfl

@[simp] theorem State.withSpace_withSpace (s : State) (ts ts' : List Turn) (S : Space)
    (m m' : Memory) : (s.withSpace ts S m).withSpace ts' S m' = s.withSpace ts' S m' := by
  cases S <;> rfl

theorem State.withSpace_self (s : State) (S : Space) : s.withSpace s.turns S (s.space S) = s := by
  cases S <;> rfl

/-- The byte of a space at an address after a multi-byte write. -/
theorem State.spaceByte_memWrite {w : Nat} (s : State) (ts : List Turn) (S : Space) (a : Nat)
    (v : BitVec w) (n x : Nat) :
    (s.withSpace ts S (memWrite (s.space S) a v n)).spaceByte S x =
      if a ≤ x ∧ x < a + n then v.extractLsb' (8 * (x - a)) 8 else s.spaceByte S x := by
  cases S <;>
    simp only [State.spaceByte, State.fbByte, State.obByte, State.withSpace, State.space,
      memWrite_lookup] <;>
    split <;> rfl

/-- One byte write while idle (R145). -/
theorem step_turnWrite_idle {s : State} {S : Space} {a : Nat} {b : Byte} {ts : List Turn}
    (ht : s.turns = turnWrite S a b :: ts) (ha : a < s.capacity S) (hb : s.status.busy = false) :
    step s = .next (s.withSpace ts S ((s.space S).write a b)) := by
  cases S with
  | fb => exact step_fbWrite_idle ht ha hb
  | ob => exact step_obWrite_idle ht ha hb

/-- Byte writes one after another while BUSY: the turns are taken and nothing changes. -/
theorem run_turnsLoad_busy {s : State} {S : Space} {a : Nat} {bs : List Byte} {ts : List Turn}
    (ha : a + bs.length ≤ s.capacity S) (ht : s.turns = turnsLoad S a bs ++ ts)
    (hb : s.status.busy = true) :
    Sys2Proof.core.run bs.length s = .next { s with turns := ts } := by
  induction bs generalizing s a with
  | nil =>
    obtain rfl : s.turns = ts := ht
    rfl
  | cons b bs ih =>
    rw [List.length_cons] at ha ⊢
    rw [run_succ (step_turnWrite_busy ht (by omega) hb)]
    refine ih (a := a + 1) ?_ rfl hb
    rw [State.capacity_withRecord]
    omega

/-- The lowest `k` bytes of a value, lowest first. -/
def lowBytes {w : Nat} (v : BitVec w) (k : Nat) : List Byte :=
  (List.range k).map (fun j => v.extractLsb' (8 * j) 8)

theorem wideBytes_eq_lowBytes {n : Nat} (v : BitVec (8 * n)) : wideBytes v = lowBytes v n := rfl

theorem lowBytes_succ {w : Nat} (v : BitVec w) (k : Nat) :
    lowBytes v (k + 1) = lowBytes v k ++ [v.extractLsb' (8 * k) 8] := by
  simp [lowBytes, List.range_succ]

@[simp] theorem lowBytes_length {w : Nat} (v : BitVec w) (k : Nat) :
    (lowBytes v k).length = k := by
  simp [lowBytes]

/-- Writes of a value's lowest `k` bytes one after another while idle are one MemWrite (R51, R7). -/
theorem run_lowBytes_idle {w : Nat} {s : State} {S : Space} {a k : Nat} {v : BitVec w}
    {ts : List Turn} (ha : a + k ≤ s.capacity S)
    (ht : s.turns = turnsLoad S a (lowBytes v k) ++ ts) (hb : s.status.busy = false) :
    Sys2Proof.core.run k s = .next (s.withSpace ts S (memWrite (s.space S) a v k)) := by
  induction k generalizing ts with
  | zero =>
    obtain rfl : s.turns = ts := ht
    exact congrArg Host.Outcome.next (s.withSpace_self S).symm
  | succ k ih =>
    rw [lowBytes_succ, turnsLoad_concat, lowBytes_length, List.append_assoc,
      List.singleton_append] at ht
    refine run_snoc (ih (by omega) ht) ?_
    rw [step_turnWrite_idle (State.withSpace_turns ..) (by rw [State.withSpace_capacity]; omega)
      (by rw [State.withSpace_status]; exact hb), State.withSpace_withSpace, State.space_withSpace]
    rfl

/-- Byte reads one after another: they leave replies and draws alone behind, and the replies compose
to a value, while idle the MemRead of the bytes (R51, R145). -/
theorem run_turnsDump {s : State} {S : Space} {a n : Nat} {ts : List Turn}
    (ha : a + n ≤ s.capacity S) (ht : s.turns = turnsDump S a n ++ ts) :
    ∃ rs d r, Sys2Proof.core.run n s = .next { s with turns := ts, replies := rs, draws := d } ∧
      wideReadValue n rs = some r ∧
      (s.status.busy = false → r = memRead (s.spaceByte S) a n ∧ d = s.draws) := by
  induction n generalizing ts with
  | zero =>
    obtain rfl : s.turns = ts := ht
    exact ⟨s.replies, s.draws, 0#0, rfl, rfl, fun _ => ⟨rfl, rfl⟩⟩
  | succ n ih =>
    rw [turnsDump_concat, List.append_assoc, List.singleton_append] at ht
    obtain ⟨rs, d, r, hrun, hval, hidle⟩ := ih (by omega) ht
    obtain ⟨b, d', hstep, hb⟩ := step_turnRead
      (s := { s with turns := turnRead S (a + n) :: ts, replies := rs, draws := d }) rfl
      (by rw [State.capacity_withRecord]; omega)
    rw [State.spaceByte_withRecord] at hb
    refine ⟨.byte b :: rs, d', _, run_snoc hrun hstep, congrArg (Option.map _) hval, fun hi => ?_⟩
    obtain ⟨rfl, rfl⟩ := hidle hi
    obtain ⟨rfl, rfl⟩ := hb hi
    exact ⟨rfl, rfl⟩

/-- Settles O48: the turns by index, then the three runs (`run_turnsLoad_busy`,
`run_lowBytes_idle`, `run_turnsDump`). -/
theorem wideTransfersAreByteAccesses : Obligations.WideTransfersAreByteAccesses := by
  intro s S a n v ts
  refine ⟨⟨by simp [turnsWideWrite], by simp [turnsWideRead], fun k hk => ⟨?_, ?_⟩⟩,
    fun ha ht => ⟨fun hb => ?writeBusy, fun hb => ?writeIdle⟩, fun ha ht => ?read⟩
  · rw [turnsWideWrite, turnsLoad_getElem?, wideBytes_getElem? v hk, Option.map_some]
  · exact turnsDump_getElem? S a n k hk
  case writeBusy =>
    simpa using run_turnsLoad_busy (bs := wideBytes v) (by simpa using ha) ht hb
  case writeIdle =>
    rw [turnsWideWrite, wideBytes_eq_lowBytes] at ht
    have hbytes := s.spaceByte_memWrite ts S a v n
    refine ⟨_, run_lowBytes_idle ha ht hb, by cases S <;> rfl, hbytes,
      memRead_of_bytes fun k hk => ?_⟩
    rw [hbytes, if_pos (by omega), Nat.add_sub_cancel_left]
  case read =>
    obtain ⟨rs, d, r, hrun, hval, hidle⟩ := run_turnsDump ha ht
    exact ⟨_, r, hrun, hval, rfl, hidle⟩

end Sys2Proof.Machine
end

section
/-! The decoder and the encoder agree on every word of both control formats (30_encoding.md R77 to
R79). -/

namespace Sys2Proof

/-- Every instruction's encoding is read back as that instruction (R77, R79). -/
@[simp] theorem decode_encode (i : Instr) : decode (encode i) = .ok i := by
  cases i <;> rfl

/-- A command word that is read as an instruction has a clear ZERO field, so its value is its OPCODE
and the word is that instruction's row of R77. -/
theorem cmdw_eq_encode_of_decodeCommand_ok {c : Word} {i : Instr} (h : decodeCommand c = .ok i) :
    .cmdw c = encode i := by
  by_cases hz : c.extractLsb' 8 24 = 0#24
  · have hc := toNat_eq_opcode hz
    rw [decodeCommand, if_neg (not_not.2 hz)] at h
    split at h <;> cases h
    all_goals
      next hop => exact congrArg Encoding.cmdw (BitVec.eq_of_toNat_eq (hc.trans hop))
  · rw [decodeCommand_zeroFieldSet hz] at h
    cases h

/-- A PHASE that is read as a micro-operation is that micro-operation's row of R79. -/
theorem walk_eq_encode_of_decodePhase_ok {p : BitVec 3} {i : Instr} (h : decodePhase p = .ok i) :
    .walk p = encode i := by
  unfold decodePhase at h
  split at h <;> cases h
  all_goals
    next hp => exact congrArg Encoding.walk (BitVec.eq_of_toNat_eq hp)

/-- Settles O1: `decode_encode` is one direction; the other is by the format of the word
(`cmdw_eq_encode_of_decodeCommand_ok`, `walk_eq_encode_of_decodePhase_ok`). -/
theorem decodeAgreesWithEncode : Obligations.DecodeAgreesWithEncode := by
  intro e i
  refine ⟨fun h => ?_, fun he => he ▸ decode_encode i⟩
  cases e with
  | cmdw c => exact cmdw_eq_encode_of_decodeCommand_ok h
  | walk p => exact walk_eq_encode_of_decodePhase_ok h

/-- Settles O2: six of the words are encodings (`decode_encode`), and the four others are rejected
for the ZERO field, the OPCODE and the PHASE. -/
theorem tableWordsDecode : Obligations.TableWordsDecode :=
  ⟨decode_encode .nop, decode_encode .packl, decode_encode .convert, decode_encode .clrst,
    decodeCommand_zeroFieldSet (by decide), decodeCommand_opcodeReserved (by decide) (by decide),
    decode_encode .wlq, decode_encode .wfin, Machine.decode_phase_code .idle, rfl⟩

end Sys2Proof
end

section
/-! The packer (40_quad_packer.md R90 to R101): a quad as the append of its four samples, each bit
of it as a bit of the gather block, its five bytes, and the commands on the quad port. -/

namespace Sys2Proof.Machine

/-! ### CONCAT and its inverse (R94, R99) -/

/-- CONCAT appends the four samples, the first one lowest. -/
theorem pack40_eq_append (a b c d : Sample) : pack40 a b c d = d ++ c ++ b ++ a := by
  refine BitVec.eq_of_getLsbD_eq fun i _ => ?_
  rw [pack40_getLsbD, BitVec.getLsbD_append, BitVec.getLsbD_append, BitVec.getLsbD_append,
    Nat.sub_sub, Nat.sub_sub]
  grind

/-- Each sample is read back from its own field. -/
theorem unpack40_pack40 (a b c d : Sample) :
    unpack40 (pack40 a b c d) = { v0 := a, v1 := b, v2 := c, v3 := d } := by
  rw [unpack40, Four.mk.injEq]
  refine ⟨?_, ?_, ?_, ?_⟩ <;> refine BitVec.eq_of_getLsbD_eq fun i hi => ?_ <;>
    rw [BitVec.getLsbD_extractLsb', pack40_getLsbD] <;> grind

/-- The four fields of a quad, appended, are the quad. -/
theorem pack40_unpack40 (q : Quad) :
    pack40 (unpack40 q).v0 (unpack40 q).v1 (unpack40 q).v2 (unpack40 q).v3 = q := by
  simp only [pack40_eq_append, unpack40]
  rw [BitVec.extractLsb'_append_extractLsb'_eq_extractLsb' (show 30 = 20 + 10 from rfl),
    BitVec.extractLsb'_append_extractLsb'_eq_extractLsb' (show 20 = 10 + 10 from rfl),
    BitVec.extractLsb'_append_extractLsb'_eq_extractLsb' (show 10 = 0 + 10 from rfl)]
  exact BitVec.extractLsb'_eq_self

/-- The two parts of an append do not overlap, so its value is a sum. -/
theorem toNat_append_eq_add {m n : Nat} (x : BitVec m) (y : BitVec n) :
    (x ++ y).toNat = y.toNat + x.toNat * 2 ^ n := by
  rw [BitVec.toNat_append, ← Nat.shiftLeft_add_eq_or_of_lt y.isLt, Nat.shiftLeft_eq, Nat.add_comm]

/-- Settles O11: the fields are read back by `unpack40_pack40`, and the value is that of the
append. -/
theorem pack40PlacesEachSample : Obligations.Pack40PlacesEachSample := by
  intro a b c d
  obtain ⟨ha, hb, hc, hd⟩ := Four.mk.inj (unpack40_pack40 a b c d)
  refine ⟨ha, hb, hc, hd, ?_⟩
  simp only [pack40_eq_append, toNat_append_eq_add]
  ring

/-- Settles O12: `unpack40` is the inverse on both sides; two blocks that differ in bit 10, which
MASK drops, have one quad. -/
theorem pack40IsABijection : Obligations.Pack40IsABijection :=
  ⟨unpack40_pack40, pack40_unpack40, fun k => ⟨0#64, 0x400#64, by decide, by cases k <;> decide⟩⟩

/-! ### Each bit of a quad comes from one bit of the block (R91 to R94, R100) -/

/-- Bit `i` of a quad is bit `i mod 10` of the halfword ORDER puts at place `i / 10`. -/
theorem quadpackValue_getLsbD (k : Kind) (g : GatherBlock) {i : Nat} (hi : i < 40) :
    (quadpackValue k g).getLsbD i = g.getLsbD (16 * quadPosition k (i / 10) + i % 10) := by
  obtain ⟨m, r, hm, hr, rfl⟩ : ∃ m r, m < 4 ∧ r < 10 ∧ i = 10 * m + r :=
    ⟨i / 10, i % 10, by omega, by omega, by omega⟩
  rw [show (10 * m + r) / 10 = m by omega, show (10 * m + r) % 10 = r by omega]
  cases k <;> interval_cases m <;>
    simp only [quadpackValue_luma, quadpackValue_chroma, pack40_getLsbD, sampleValue_getLsbD,
      gather_getLsbD, quadPosition] <;> grind

/-- ORDER at most exchanges two places, so applied twice it changes nothing, R93. -/
theorem quadPosition_quadPosition (k : Kind) (n : Nat) :
    quadPosition k (quadPosition k n) = n := by
  cases k with
  | luma => rfl
  | chroma => grind [quadPosition]

/-- Settles O15: a bit outside the field of sample `k` comes from another halfword, because ORDER
is its own inverse (`quadPosition_quadPosition`). -/
theorem sampleChangesOnlyItsOwnField : Obligations.SampleChangesOnlyItsOwnField := by
  intro kind k g g' _ h i hi
  by_cases h40 : i < 40
  · have hother : quadPosition kind (i / 10) ≠ k := by
      rintro rfl
      exact hi (quadPosition_quadPosition kind _).symm
    rw [quadpackValue_getLsbD kind g h40, quadpackValue_getLsbD kind g' h40, h _ (by omega)]
  · rw [BitVec.getLsbD_of_ge _ _ (by omega), BitVec.getLsbD_of_ge _ _ (by omega)]

/-! ### The ignored bits (R92) -/

/-- Halfword `k` of a block has an ignored bit set exactly when the block has one set there. -/
theorem hasIgnoredBits_extract_iff (g : GatherBlock) (k : Nat) :
    hasIgnoredBits (g.extractLsb' (16 * k) 16) = true ↔
      ∃ i, i / 16 = k ∧ 10 ≤ i % 16 ∧ g.getLsbD i = true := by
  rw [hasIgnoredBits_iff]
  constructor
  · rintro ⟨i, h10, h16, hi⟩
    exact ⟨16 * k + i, by omega, by omega, by simpa [h16] using hi⟩
  · rintro ⟨i, rfl, h10, hi⟩
    refine ⟨i % 16, h10, by omega, ?_⟩
    simpa [show i % 16 < 16 by omega, Nat.div_add_mod] using hi

/-- The truncation bit says whether one of the four halfwords has an ignored bit set. -/
theorem quadpackTruncates_iff_halfword (g : GatherBlock) :
    quadpackTruncates g = true ↔
      ∃ k, k < 4 ∧ hasIgnoredBits (g.extractLsb' (16 * k) 16) = true := by
  simp only [quadpackTruncates, maskTruncates, gather, Bool.or_eq_true]
  constructor
  · rintro (((h | h) | h) | h)
    exacts [⟨0, by omega, h⟩, ⟨1, by omega, h⟩, ⟨2, by omega, h⟩, ⟨3, by omega, h⟩]
  · rintro ⟨k, hk, h⟩
    interval_cases k <;> simp_all

/-- The truncation bit says whether any bit 15:10 of a halfword is set. -/
theorem quadpackTruncates_iff (g : GatherBlock) :
    quadpackTruncates g = true ↔ ∃ i, 10 ≤ i % 16 ∧ g.getLsbD i = true := by
  simp only [quadpackTruncates_iff_halfword, hasIgnoredBits_extract_iff]
  constructor
  · rintro ⟨_, _, i, _, h10, hi⟩
    exact ⟨i, h10, hi⟩
  · rintro ⟨i, h10, hi⟩
    have h64 : i < 64 := BitVec.lt_of_getLsbD hi
    exact ⟨i / 16, by omega, i, rfl, h10, hi⟩

/-- Settles O14: each bit of the quad is a bit 9:0 of some halfword (`quadpackValue_getLsbD`), and
the truncation bit is by `quadpackTruncates_iff`. -/
theorem quadpackIgnoresAndReportsHighBits : Obligations.QuadpackIgnoresAndReportsHighBits := by
  refine ⟨fun k g g' h => BitVec.eq_of_getLsbD_eq fun i hi => ?_, quadpackTruncates_iff⟩
  rw [quadpackValue_getLsbD k g hi, quadpackValue_getLsbD k g' hi, h _ (by omega)]

/-! ### The byte equations (R95, R96) -/

/-- The value of a stored sample has its low byte whole and two bits of its high byte. -/
theorem sampleValue_append_getLsbD (hi lo : Byte) (i : Nat) :
    (sampleValue (hi ++ lo)).getLsbD i =
      if i < 8 then lo.getLsbD i else (decide (i < 10) && hi.getLsbD (i - 8)) := by
  rw [sampleValue_getLsbD, BitVec.getLsbD_append]
  grind

/-- The halfwords of a block given by its bytes, R91. -/
theorem gather_bytes (g0 g1 g2 g3 g4 g5 g6 g7 : Byte) :
    gather (g7 ++ g6 ++ g5 ++ g4 ++ g3 ++ g2 ++ g1 ++ g0) =
      { v0 := g1 ++ g0, v1 := g3 ++ g2, v2 := g5 ++ g4, v3 := g7 ++ g6 } := by
  rw [gather, Four.mk.injEq]
  refine ⟨?_, ?_, ?_, ?_⟩ <;> refine BitVec.eq_of_getLsbD_eq fun i hi => ?_ <;>
    simp only [BitVec.getLsbD_extractLsb', BitVec.getLsbD_append] <;> grind

/-- Settles O13: ORDER puts the samples of both blocks in one order (`gather_bytes`), and in each
byte of their quad each bit is the one its equation names. -/
theorem quadBytesFollowTheByteEquations : Obligations.QuadBytesFollowTheByteEquations := by
  intro k g0 g1 g2 g3 g4 g5 g6 g7 g
  have hp : quadpackValue k g = pack40 (sampleValue (g1 ++ g0)) (sampleValue (g3 ++ g2))
      (sampleValue (g5 ++ g4)) (sampleValue (g7 ++ g6)) := by
    cases k with
    | luma => rw [quadpackValue_luma, gather_bytes]
    | chroma => rw [quadpackValue_chroma, gather_bytes]
  rw [hp]
  refine ⟨?_, ?_, ?_, ?_, ?_⟩ <;> refine BitVec.eq_of_getLsbD_eq fun i hi => ?_ <;>
    simp only [quadByte, BitVec.getLsbD_extractLsb', pack40_getLsbD, sampleValue_append_getLsbD] <;>
    interval_cases i <;> simp

/-! ### PACKL and PACKC (R97, R98, R101) -/

/-- A field of a field is a field of the whole. -/
theorem extractLsb'_extractLsb'_of_add_le {w o n i m : Nat} (x : BitVec w) (h : i + m ≤ n) :
    (x.extractLsb' o n).extractLsb' i m = x.extractLsb' (o + i) m := by
  refine BitVec.eq_of_getLsbD_eq fun j hj => ?_
  simp [hj, show i + j < n by omega, Nat.add_assoc]

/-- The truncation bit of the quad port's block, from QIN0 and QIN1. -/
theorem quadpackTruncates_portBlock (s : State) :
    quadpackTruncates s.portBlock =
      (s.qin0.extractLsb' 10 6 != 0#6 || s.qin0.extractLsb' 26 6 != 0#6 ||
        s.qin1.extractLsb' 10 6 != 0#6 || s.qin1.extractLsb' 26 6 != 0#6) := by
  simp [quadpackTruncates, gather_portBlock, maskTruncates, hasIgnoredBits,
    extractLsb'_extractLsb'_of_add_le]

/-- The four samples of the quad port's block, from QIN0 and QIN1. -/
theorem maskSamples_portBlock (s : State) :
    maskSamples (gather s.portBlock) =
      { v0 := s.qin0.extractLsb' 0 10, v1 := s.qin0.extractLsb' 16 10,
        v2 := s.qin1.extractLsb' 0 10, v3 := s.qin1.extractLsb' 16 10 } := by
  simp [gather_portBlock, maskSamples, sampleValue, extractLsb'_extractLsb'_of_add_le]

/-- What a pack of the quad port leaves behind, for a kind whose ORDER gives `m`. -/
theorem packPort_eq {k : Kind} {s : State} {m : Four Sample}
    (hm : order k (maskSamples (gather s.portBlock)) = m) :
    packPort k s = { s with
      qout0 := (pack40 m.v0 m.v1 m.v2 m.v3).extractLsb' 0 32
      qout1 := (pack40 m.v0 m.v1 m.v2 m.v3).extractLsb' 32 8
      status := s.status.accumulateTrunc (quadpackTruncates s.portBlock) } := by
  subst hm
  rfl

/-- Settles O17: both commands are `packPort`, whose samples and truncation bit are those of QIN
(`maskSamples_portBlock`, `quadpackTruncates_portBlock`). -/
theorem packCommandsPackQinIntoQout : Obligations.PackCommandsPackQinIntoQout := by
  intro s t a b c d
  have ht : s.status.accumulateTrunc (quadpackTruncates s.portBlock) =
      { s.status with trunc := s.status.trunc || t } := by
    rw [quadpackTruncates_portBlock, Status.accumulateTrunc]
  constructor
  · have hm : order .luma (maskSamples (gather s.portBlock)) = ⟨a, b, c, d⟩ :=
      maskSamples_portBlock s
    change Host.Outcome.next (packPort .luma s) = _
    rw [packPort_eq hm, ht]
  · have hm : order .chroma (maskSamples (gather s.portBlock)) = ⟨a, c, b, d⟩ := by
      rw [maskSamples_portBlock]
      rfl
    change Host.Outcome.next (packPort .chroma s) = _
    rw [packPort_eq hm, ht]

end Sys2Proof.Machine
end

section
/-! The conversion over a step: what a step can do to it (`ConversionEffect`), how far the walker
gets, and the invariant of the machine (41_frame_codec.md R119 to R121). -/

namespace Sys2Proof.Machine

/-! ### What a step does to the conversion -/

/-- What a micro-operation answers in the phase that selects it (R79, R115 to R118). -/
inductive WalkerEffect (s : State) : Instr → State → Prop where
  | wclr (hp : s.pc.phase = .clear) : WalkerEffect s .wclr { s with
      ob := s.ob.fill (fun _ => 0#8) s.outBytes.toNat
      optr := 0#32
      pc := { phase := .luma, row := 0#16, col := 0#16 } }
  | wlq (hp : s.pc.phase = .luma) : WalkerEffect s .wlq
      (s.afterQuad .luma (memRead s.fbByte s.lumaAddr 8) s.afterLuma)
  | wcq (hp : s.pc.phase = .chroma) : WalkerEffect s .wcq (s.afterQuad .chroma
      (memRead s.fbByte s.vAddr 4 ++ memRead s.fbByte s.uAddr 4 : GatherBlock) s.afterChroma)
  | wfin (hp : s.pc.phase = .fin) :
      WalkerEffect s .wfin { s with status := s.status.finish, pc := ⟨.idle, 0#16, 0#16⟩ }

/-- Everything a step can do to the conversion: nothing (`quiet`), something while the walker is
idle that leaves it so, a reset, the acceptance of CONVERT, or a walker step. -/
inductive ConversionEffect (s : State) : State → Prop where
  | quiet (r : List Reply) (d : Nat) :
    ConversionEffect s { s.afterTurn with replies := r, draws := d }
  | staysIdle {t : State} (hi : s.pc.phase = .idle) (hpc : t.pc = s.pc) : ConversionEffect s t
  | reset (hm : s.hostMoves .assertReset) : ConversionEffect s s.afterTurn.assertReset
  | accepted (hi : s.pc.phase = .idle) (hr : s.commandRuns .convert) (ha : s.Accepted) :
    ConversionEffect s s.afterTurn.convertStart.writeSizes.startWalk
  | walks {i : Instr} {t : State} (hr : s.microOpRuns i) (hw : WalkerEffect s.afterTurn i t) :
    ConversionEffect s t

/-- BUSY 0 means an idle walker, R17. -/
theorem phase_idle_of_not_busy {s : State} (hs : s.BusyMatchesPhase)
    (hb : s.status.busy = false) : s.pc.phase = .idle := by
  by_contra hp
  rw [hs.2 hp] at hb
  cases hb

/-- A micro-operation has the effect of its phase. -/
theorem walkerEffect_of_exec {s t : State} {i : Instr} (hr : s.microOpRuns i)
    (hx : exec i s.afterTurn = .next t) : WalkerEffect s.afterTurn i t := by
  rcases hr.phase_cases with ⟨hp, rfl⟩ | ⟨hp, rfl⟩ | ⟨hp, rfl⟩ | ⟨hp, rfl⟩ <;>
    cases exec_cases hx
  · exact .wclr hp
  · exact .wlq hp
  · exact .wcq hp
  · exact .wfin hp

/-- A command leaves the walker idle, or is an accepted CONVERT; a micro-operation has the effect
of its phase. -/
theorem runs_conversion {s t : State} {i : Instr} (hs : s.BusyMatchesPhase) (hr : s.runs i)
    (hx : exec i s.afterTurn = .next t) : ConversionEffect s t := by
  rcases hr with hc | hm
  · obtain ⟨hb, c, hm, hd⟩ := hc
    have hi := decodeCommand_ok hd
    have hidle := phase_idle_of_not_busy hs hb
    cases exec_cases hx with
    | convertOk ha => exact .accepted hidle ⟨hb, c, hm, hd⟩ ha
    | wclr | wlq | wcq | wfin => simp at hi
    | _ => exact .staysIdle hidle rfl
  · exact .walks hm (walkerEffect_of_exec hm hx)

/-- The inversion of `step` as far as the conversion goes. -/
theorem step_conversion {s t : State} (hs : s.BusyMatchesPhase) (h : step s = .next t) :
    ConversionEffect s t := by
  cases step_effect h with
  | ran hr hx => exact runs_conversion hs hr hx
  | quiet r d => exact .quiet r d
  | setWidth _ _ hb => exact .staysIdle (phase_idle_of_not_busy hs hb) rfl
  | setHeight _ _ hb => exact .staysIdle (phase_idle_of_not_busy hs hb) rfl
  | setQin0 _ _ hb => exact .staysIdle (phase_idle_of_not_busy hs hb) rfl
  | setQin1 _ _ hb => exact .staysIdle (phase_idle_of_not_busy hs hb) rfl
  | illegal _ _ _ hb => exact .staysIdle (phase_idle_of_not_busy hs hb) rfl
  | fbWrite _ _ _ hb => exact .staysIdle (phase_idle_of_not_busy hs hb) rfl
  | obWrite _ _ _ hb => exact .staysIdle (phase_idle_of_not_busy hs hb) rfl
  | reset hm => exact .reset hm

/-- WLQ leaves the walker in LUMA or at the start of CHROMA, R116. -/
theorem afterLuma_phase_cases (s : State) :
    s.afterLuma.phase = .luma ∨ s.afterLuma = ⟨.chroma, 0#16, 0#16⟩ := by
  unfold State.afterLuma
  split_ifs <;> simp

/-- WCQ leaves the walker in CHROMA or at FIN, R117. -/
theorem afterChroma_phase_cases (s : State) :
    s.afterChroma.phase = .chroma ∨ s.afterChroma = ⟨.fin, 0#16, 0#16⟩ := by
  unfold State.afterChroma
  split_ifs <;> simp

/-- Settles O35: by the effect of the step on the conversion (`step_conversion`). -/
theorem phaseMovesOnlyAlongTheSequence : Obligations.PhaseMovesOnlyAlongTheSequence := by
  intro s t hs h hreset hne
  cases step_conversion hs h with
  | quiet => exact absurd rfl hne
  | staysIdle _ hpc => exact absurd (congrArg Position.phase hpc) hne
  | reset hm => exact absurd hm hreset
  | accepted hi hr ha => exact .inl ⟨hi, rfl, hr, ha⟩
  | walks hr hw =>
    cases hw with
    | wclr hp => exact .inr (.inl ⟨hp, rfl, hr⟩)
    | wlq hp =>
      rcases afterLuma_phase_cases s.afterTurn with e | e
      · exact absurd (e.trans hp.symm) hne
      · exact .inr (.inr (.inl ⟨hp, congrArg Position.phase e, hr⟩))
    | wcq hp =>
      rcases afterChroma_phase_cases s.afterTurn with e | e
      · exact absurd (e.trans hp.symm) hne
      · exact .inr (.inr (.inr (.inl ⟨hp, congrArg Position.phase e, hr⟩)))
    | wfin hp => exact .inr (.inr (.inr (.inr ⟨hp, rfl, hr⟩)))

/-! ### How far the walker is -/

/-- Luma quads the walker has passed, R116. -/
def State.lumaPassed (s : State) : Nat :=
  match s.pc.phase with
  | .idle => 0
  | .clear => 0
  | .luma => s.lumaIndex / 4
  | .chroma => lumaQuads s.w s.h
  | .fin => lumaQuads s.w s.h

/-- Chroma quads the walker has passed, R117. -/
def State.chromaPassed (s : State) : Nat :=
  match s.pc.phase with
  | .idle => 0
  | .clear => 0
  | .luma => 0
  | .chroma => s.chromaIndex / 2
  | .fin => chromaQuads s.w s.h

theorem passed_of_clear {s : State} (hp : s.pc.phase = .clear) :
    s.lumaPassed = 0 ∧ s.chromaPassed = 0 := by
  rw [State.lumaPassed, State.chromaPassed, hp]
  exact ⟨rfl, rfl⟩

theorem passed_of_luma {s : State} (hp : s.pc.phase = .luma) :
    s.lumaPassed = s.lumaIndex / 4 ∧ s.chromaPassed = 0 := by
  rw [State.lumaPassed, State.chromaPassed, hp]
  exact ⟨rfl, rfl⟩

theorem passed_of_chroma {s : State} (hp : s.pc.phase = .chroma) :
    s.lumaPassed = lumaQuads s.w s.h ∧ s.chromaPassed = s.chromaIndex / 2 := by
  rw [State.lumaPassed, State.chromaPassed, hp]
  exact ⟨rfl, rfl⟩

theorem passed_of_fin {s : State} (hp : s.pc.phase = .fin) :
    s.lumaPassed = lumaQuads s.w s.h ∧ s.chromaPassed = chromaQuads s.w s.h := by
  rw [State.lumaPassed, State.chromaPassed, hp]
  exact ⟨rfl, rfl⟩

/-- From WCLR on the steps left are the quads not passed and WFIN (R121). -/
theorem stepsLeft_eq {s : State} (hi : s.pc.phase ≠ .idle) (hc : s.pc.phase ≠ .clear) :
    s.stepsLeft = (lumaQuads s.w s.h - s.lumaPassed) + (chromaQuads s.w s.h - s.chromaPassed) +
      1 := by
  unfold State.stepsLeft State.lumaPassed State.chromaPassed
  cases h : s.pc.phase <;> simp_all

theorem stepsLeft_of_fin {s : State} (hp : s.pc.phase = .fin) : s.stepsLeft = 1 := by
  rw [State.stepsLeft, hp]

theorem stepsLeft_of_clear {s : State} (hp : s.pc.phase = .clear) :
    s.stepsLeft = 1 + lumaQuads s.w s.h + chromaQuads s.w s.h + 1 := by
  rw [State.stepsLeft, hp]

@[simp] theorem State.afterQuad_pc (s : State) (k : Kind) (g : GatherBlock) (p : Position) :
    (s.afterQuad k g p).pc = p := rfl
@[simp] theorem State.afterQuad_w (s : State) (k : Kind) (g : GatherBlock) (p : Position) :
    (s.afterQuad k g p).w = s.w := rfl
@[simp] theorem State.afterQuad_h (s : State) (k : Kind) (g : GatherBlock) (p : Position) :
    (s.afterQuad k g p).h = s.h := rfl

theorem State.Inv.afterTurn {s : State} (hs : s.Inv) : s.afterTurn.Inv :=
  ⟨hs.params, hs.memories, hs.busy, hs.done, hs.position⟩

theorem positionInv_of_idle {s : State} (h : s.pc = ⟨.idle, 0#16, 0#16⟩) : s.PositionInv := by
  simp [State.PositionInv, h]

/-- While idle the walker rests at (0, 0), R120. -/
theorem State.Inv.pc_of_idle {s : State} (hs : s.Inv) (hp : s.pc.phase = .idle) :
    s.pc = ⟨.idle, 0#16, 0#16⟩ := by
  have hpos := hs.position
  simp only [State.PositionInv, hp] at hpos
  obtain ⟨hrow, hcol⟩ := hpos
  change (⟨s.pc.phase, s.pc.row, s.pc.col⟩ : Position) = _
  rw [hp, hrow, hcol]

/-- The walker at a luma quad: where its quad is stored, and that it is one of the frame's. -/
theorem State.Inv.luma_quad {s : State} (hs : s.Inv) (hp : s.pc.phase = .luma) :
    s.lumaIndex = 4 * s.lumaPassed ∧ s.lumaPassed < lumaQuads s.w s.h ∧ s.chromaPassed = 0 ∧
      s.storeAddr = 5 * s.lumaPassed := by
  have hpos := hs.position
  simp only [State.PositionInv, hp] at hpos
  obtain ⟨ha, -, hcol, hrow, hcolw, hoptr⟩ := hpos
  obtain ⟨hmod, hlt, -⟩ := luma_next hs.params ha hcol hrow hcolw hoptr
  obtain ⟨hl, hc⟩ := passed_of_luma hp
  rw [hl]
  exact ⟨by omega, hlt, hc, hoptr⟩

/-- The walker at a chroma quad: where its quad is stored, and that it is one of the frame's. -/
theorem State.Inv.chroma_quad {s : State} (hs : s.Inv) (hp : s.pc.phase = .chroma) :
    s.chromaIndex = 2 * s.chromaPassed ∧ s.chromaPassed < chromaQuads s.w s.h ∧
      s.lumaPassed = lumaQuads s.w s.h ∧
      s.storeAddr = lumaSize s.w s.h + 5 * s.chromaPassed := by
  have hpos := hs.position
  simp only [State.PositionInv, hp] at hpos
  obtain ⟨ha, -, hcol, hrow, hcolw, hoptr⟩ := hpos
  obtain ⟨hmod, hlt, -⟩ := chroma_next hs.params ha hcol hrow hcolw hoptr
  obtain ⟨hl, hc⟩ := passed_of_chroma hp
  rw [hc]
  exact ⟨by omega, hlt, hl, hoptr⟩

section
variable {s : State} (hs : s.Inv)
include hs

/-- WCLR leaves the walker at the first luma quad. -/
theorem wclr_advances (hp : s.pc.phase = .clear) (m : Memory) :
    let t : State := { s with ob := m, optr := 0#32, pc := ⟨.luma, 0#16, 0#16⟩ }
    t.PositionInv ∧ t.lumaPassed = 0 ∧ t.chromaPassed = 0 := by
  have hpos := hs.position
  simp only [State.PositionInv, hp] at hpos
  obtain ⟨ha, hsize, -⟩ := hpos
  obtain ⟨⟨hw, hh, -⟩, -⟩ := geomCheck_ok.1 ha
  refine ⟨⟨ha, hsize, rfl, hh, hw, ?_⟩, ?_, rfl⟩ <;> simp [State.lumaPassed, State.lumaIndex]

/-- WLQ passes one luma quad and keeps the walker where R120 says. -/
theorem wlq_advances (hp : s.pc.phase = .luma) (g : GatherBlock) :
    (s.afterQuad .luma g s.afterLuma).PositionInv ∧
      (s.afterQuad .luma g s.afterLuma).lumaPassed = s.lumaPassed + 1 ∧
      (s.afterQuad .luma g s.afterLuma).chromaPassed = s.chromaPassed := by
  have hpos := hs.position
  simp only [State.PositionInv, hp] at hpos
  obtain ⟨ha, hsize, hcol, hrow, hcolw, hoptr⟩ := hpos
  obtain ⟨hl, hc⟩ := passed_of_luma hp
  rw [hl, hc]
  obtain ⟨hmod, hlt, hnext, ⟨r, c, e, hcol', hrow', hcolw', hidx⟩ | ⟨e, hlast⟩⟩ :=
    luma_next hs.params ha hcol hrow hcolw hoptr
  · have hidx' : (s.lumaIndex + 4) / 4 = s.lumaIndex / 4 + 1 := by omega
    rw [e]
    refine ⟨⟨ha, hsize, hcol', hrow', hcolw', ?_⟩, (congrArg (· / 4) hidx).trans hidx', rfl⟩
    rw [← hidx', ← hidx] at hnext
    exact hnext
  · obtain ⟨⟨hw, hh, hw4, hh2⟩, -⟩ := geomCheck_ok.1 ha
    obtain ⟨hsection, -⟩ := sizes_eq_quads hs.params ha
    rw [e]
    refine ⟨⟨ha, hsize, rfl, show 0 < s.h / 2 by omega, show 0 < s.w / 2 by omega, ?_⟩,
      hlast.symm, ?_⟩
    · have h0 : (s.afterQuad .luma g ⟨.chroma, 0#16, 0#16⟩).chromaIndex = 0 := by
        simp [State.chromaIndex, State.afterQuad]
      rw [h0]
      rw [hlast, ← hsection] at hnext
      exact hnext
    · simp [State.chromaPassed, State.chromaIndex, State.afterQuad]

/-- WCQ passes one chroma quad and keeps the walker where R120 says. -/
theorem wcq_advances (hp : s.pc.phase = .chroma) (g : GatherBlock) :
    (s.afterQuad .chroma g s.afterChroma).PositionInv ∧
      (s.afterQuad .chroma g s.afterChroma).lumaPassed = s.lumaPassed ∧
      (s.afterQuad .chroma g s.afterChroma).chromaPassed = s.chromaPassed + 1 := by
  have hpos := hs.position
  simp only [State.PositionInv, hp] at hpos
  obtain ⟨ha, hsize, hcol, hrow, hcolw, hoptr⟩ := hpos
  obtain ⟨hl, hc⟩ := passed_of_chroma hp
  rw [hl, hc]
  obtain ⟨hmod, hlt, hnext, ⟨r, c, e, hcol', hrow', hcolw', hidx⟩ | ⟨e, hlast⟩⟩ :=
    chroma_next hs.params ha hcol hrow hcolw hoptr
  · have hidx' : (s.chromaIndex + 2) / 2 = s.chromaIndex / 2 + 1 := by omega
    rw [e]
    refine ⟨⟨ha, hsize, hcol', hrow', hcolw', ?_⟩, rfl, (congrArg (· / 2) hidx).trans hidx'⟩
    rw [← hidx', ← hidx] at hnext
    exact hnext
  · obtain ⟨-, ho⟩ := sizes_eq_quads hs.params ha
    rw [e]
    refine ⟨⟨ha, hsize, rfl, rfl, ?_⟩, rfl, hlast.symm⟩
    rw [hlast, ← ho] at hnext
    exact hnext

/-- A walker step keeps the walker where R120 says. -/
theorem WalkerEffect.positionInv {i : Instr} {t : State} (hw : WalkerEffect s i t) :
    t.PositionInv := by
  cases hw with
  | wclr hp => exact (wclr_advances hs hp _).1
  | wlq hp => exact (wlq_advances hs hp _).1
  | wcq hp => exact (wcq_advances hs hp _).1
  | wfin => exact positionInv_of_idle rfl

/-- A walker step leaves one step fewer. -/
theorem WalkerEffect.stepsLeft {i : Instr} {t : State} (hw : WalkerEffect s i t) :
    t.stepsLeft + 1 = s.stepsLeft := by
  cases hw with
  | wclr hp =>
    obtain ⟨-, hl, hc⟩ := wclr_advances hs hp (s.ob.fill (fun _ => 0#8) s.outBytes.toNat)
    rw [stepsLeft_eq (by simp) (by simp), hl, hc, stepsLeft_of_clear hp]
    simp only [State.w, State.h]
    omega
  | wlq hp =>
    obtain ⟨-, hl, hc⟩ := wlq_advances hs hp (memRead s.fbByte s.lumaAddr 8)
    obtain ⟨-, hlt, -⟩ := hs.luma_quad hp
    have hclear : s.afterLuma.phase ≠ .clear := by
      rcases afterLuma_phase_cases s with h | h <;> simp [h]
    rw [stepsLeft_eq (afterLuma_phase_ne_idle s) hclear, stepsLeft_eq (by simp [hp]) (by simp [hp]),
      hl, hc]
    simp only [State.afterQuad_w, State.afterQuad_h]
    omega
  | wcq hp =>
    obtain ⟨-, hl, hc⟩ := wcq_advances hs hp
      (memRead s.fbByte s.vAddr 4 ++ memRead s.fbByte s.uAddr 4 : GatherBlock)
    obtain ⟨-, hlt, -⟩ := hs.chroma_quad hp
    have hclear : s.afterChroma.phase ≠ .clear := by
      rcases afterChroma_phase_cases s with h | h <;> simp [h]
    rw [stepsLeft_eq (afterChroma_phase_ne_idle s) hclear,
      stepsLeft_eq (by simp [hp]) (by simp [hp]), hl, hc]
    simp only [State.afterQuad_w, State.afterQuad_h]
    omega
  | wfin hp => exact (stepsLeft_of_fin hp).symm

end

/-- Settles O39: memories and BUSY are kept by O30 and O36, DONE by what can write STATUS, and the
position by the effect of the step on the conversion (`WalkerEffect.positionInv`). -/
theorem stepKeepsTheInvariant : Obligations.StepKeepsTheInvariant := by
  intro s t hs h
  refine ⟨step_keeps_params h ▸ hs.params, stepKeepsMemoriesCanonical s t hs.memories h,
    stepKeepsBusyMatchingPhase s t hs.busy h, ?done, ?position⟩
  case done =>
    have hst := step_status h
    generalize t.status = st at hst ⊢
    cases hst with
    | same => exact hs.done
    | reset => exact fun _ => rfl
    | _ => simp +contextual [hs.done]
  case position =>
    cases step_conversion hs.busy h with
    | quiet => exact hs.position
    | staysIdle hi hpc => exact positionInv_of_idle (hpc.trans (hs.pc_of_idle hi))
    | reset => exact positionInv_of_idle rfl
    | accepted _ _ ha => exact ⟨ha, writeSizes_toNat hs.params ha, rfl, rfl, rfl⟩
    | walks _ hw => exact hw.positionInv hs.afterTurn

/-- The walker's turn while it is not idle runs the micro-operation of its phase, R79. -/
theorem exists_microOpRuns {s : State} (hp : s.pc.phase ≠ .idle) (hm : s.walkerMoves = true) :
    ∃ i, s.microOpRuns i := by
  simp only [State.microOpRuns, hm, decode_phase_code, true_and]
  cases h : s.pc.phase <;> simp_all

/-- Settles O42: by what the micro-operation of the phase does (`WalkerEffect.stepsLeft`). -/
theorem eachWalkerStepComesOneNearer : Obligations.EachWalkerStepComesOneNearer := by
  intro s t hs hp hm h
  obtain ⟨i, hr⟩ := exists_microOpRuns hp hm
  have hw := walkerEffect_of_exec hr (step_of_runs (.inr hr) ▸ h)
  exact hw.stepsLeft hs.afterTurn

end Sys2Proof.Machine
end

section
/-! The output of a conversion (41_frame_codec.md R115 to R118, R122 to R124): what each walker step
does to OB and TRUNC, the quads of a frame, and that the quads passed stand. -/

namespace Sys2Proof.Machine

/-! ### WFIN, WCLR, WLQ and WCQ -/

/-- Settles O27: WFIN's arm as `exec_command_next` states it. -/
theorem wfinEndsTheConversion : Obligations.WfinEndsTheConversion := by
  intro s
  obtain ⟨-, -, -, -, -, hwfin⟩ := exec_command_next s
  exact hwfin

/-- Settles O24: the area is filled with zeros from address 0 (`Memory.lookup_fill`). -/
theorem wclrZeroesTheOutputArea : Obligations.WclrZeroesTheOutputArea := by
  intro s ho
  refine ⟨_, (execWclr_eq s).trans (if_pos ho), fun a => ?_, rfl⟩
  rw [State.obByte, Memory.lookup_fill]
  split <;> rfl

/-- Where WLQ leaves the walker, R116: the three moves of the raster. -/
theorem afterLuma_moves (s : State) :
    (s.pc.col.toNat + 4 < s.w → s.afterLuma.phase = .luma ∧ s.afterLuma.row = s.pc.row ∧
      s.afterLuma.col.toNat = s.pc.col.toNat + 4) ∧
    (s.w ≤ s.pc.col.toNat + 4 → s.pc.row.toNat + 1 < s.h → s.afterLuma.phase = .luma ∧
      s.afterLuma.row.toNat = s.pc.row.toNat + 1 ∧ s.afterLuma.col = 0#16) ∧
    (s.w ≤ s.pc.col.toNat + 4 → s.h ≤ s.pc.row.toNat + 1 →
      s.afterLuma = ⟨.chroma, 0#16, 0#16⟩) := by
  have hw := s.w_lt
  have hh := s.h_lt
  unfold State.afterLuma
  refine ⟨fun hc => ?_, fun hc hr => ?_, fun hc hr => ?_⟩
  · rw [if_pos hc]
    refine ⟨rfl, rfl, ?_⟩
    rw [BitVec.toNat_add_of_lt (by simp; omega)]
    rfl
  · rw [if_neg (by omega), if_pos hr]
    refine ⟨rfl, ?_, rfl⟩
    rw [BitVec.toNat_add_of_lt (by simp; omega)]
    rfl
  · rw [if_neg (by omega), if_neg (by omega)]

/-- Where WCQ leaves the walker, R117: the three moves of the chroma raster. -/
theorem afterChroma_moves (s : State) :
    (s.pc.col.toNat + 2 < s.w / 2 → s.afterChroma.phase = .chroma ∧ s.afterChroma.row = s.pc.row ∧
      s.afterChroma.col.toNat = s.pc.col.toNat + 2) ∧
    (s.w / 2 ≤ s.pc.col.toNat + 2 → s.pc.row.toNat + 1 < s.h / 2 → s.afterChroma.phase = .chroma ∧
      s.afterChroma.row.toNat = s.pc.row.toNat + 1 ∧ s.afterChroma.col = 0#16) ∧
    (s.w / 2 ≤ s.pc.col.toNat + 2 → s.h / 2 ≤ s.pc.row.toNat + 1 →
      s.afterChroma = ⟨.fin, 0#16, 0#16⟩) := by
  have hw := s.w_lt
  have hh := s.h_lt
  unfold State.afterChroma
  refine ⟨fun hc => ?_, fun hc hr => ?_, fun hc hr => ?_⟩
  · rw [if_pos hc]
    refine ⟨rfl, rfl, ?_⟩
    rw [BitVec.toNat_add_of_lt (by simp; omega)]
    rfl
  · rw [if_neg (by omega), if_pos hr]
    refine ⟨rfl, ?_, rfl⟩
    rw [BitVec.toNat_add_of_lt (by simp; omega)]
    rfl
  · rw [if_neg (by omega), if_neg (by omega)]

/-- The quad WLQ packs and its truncation bit, from the four samples it gathers (R92, R116). -/
theorem lumaGather (s : State) (i : Nat) :
    quadpackValue .luma (memRead s.fbByte (addrY i) 8) =
        pack40 (s.ySample i) (s.ySample (i + 1)) (s.ySample (i + 2)) (s.ySample (i + 3)) ∧
      quadpackTruncates (memRead s.fbByte (addrY i) 8) =
        (hasIgnoredBits (s.storedSample (addrY i)) ||
          hasIgnoredBits (s.storedSample (addrY (i + 1))) ||
          hasIgnoredBits (s.storedSample (addrY (i + 2))) ||
          hasIgnoredBits (s.storedSample (addrY (i + 3)))) := by
  rw [quadpackValue_luma, quadpackTruncates, gather_lumaRead]
  exact ⟨rfl, rfl⟩

/-- The quad WCQ packs and its truncation bit, from the two samples of each plane it gathers (R92,
R117). -/
theorem chromaGather (s : State) (j : Nat) :
    let g : GatherBlock :=
      memRead s.fbByte (addrV s.w s.h j) 4 ++ memRead s.fbByte (addrU s.w s.h j) 4
    quadpackValue .chroma g =
        pack40 (s.uSample j) (s.vSample j) (s.uSample (j + 1)) (s.vSample (j + 1)) ∧
      quadpackTruncates g =
        (hasIgnoredBits (s.storedSample (addrU s.w s.h j)) ||
          hasIgnoredBits (s.storedSample (addrU s.w s.h (j + 1))) ||
          hasIgnoredBits (s.storedSample (addrV s.w s.h j)) ||
          hasIgnoredBits (s.storedSample (addrV s.w s.h (j + 1)))) := by
  intro g
  rw [quadpackValue_chroma, quadpackTruncates, gather_chromaRead]
  exact ⟨rfl, rfl⟩

/-- Settles O25: the quad is stored whole (`State.afterQuad_obByte`) and is that of the gathered
samples (`lumaGather`). -/
theorem wlqPacksOneLumaQuad : Obligations.WlqPacksOneLumaQuad := by
  intro s i hf ho
  obtain ⟨hq, ht⟩ := lumaGather s i
  obtain ⟨hcol, hrow, hend⟩ := afterLuma_moves s
  have haddr : s.lumaAddr + 8 ≤ s.params.fbBytes := by
    rw [State.lumaAddr, addrY, yOff, Nat.zero_add]
    exact hf
  refine ⟨_, (execWlq_eq s).trans ((if_pos haddr).trans (if_pos ho)), fun a => ?_,
    congrArg s.status.accumulateTrunc ht, rfl, hcol, hrow, hend, rfl⟩
  rw [State.afterQuad_obByte, ← hq]
  rfl

/-- Settles O26: as for WLQ, with `chromaGather`. -/
theorem wcqPacksOneChromaQuad : Obligations.WcqPacksOneChromaQuad := by
  intro s j hu hv ho
  obtain ⟨hq, ht⟩ := chromaGather s j
  obtain ⟨hcol, hrow, hend⟩ := afterChroma_moves s
  refine ⟨_, (execWcq_eq s).trans ((if_pos ⟨hu, hv⟩).trans (if_pos ho)), fun a => ?_,
    congrArg s.status.accumulateTrunc ht, rfl, hcol, hrow, hend, rfl⟩
  rw [State.afterQuad_obByte, ← hq]
  rfl

end Sys2Proof.Machine
end

section
/-! The sizes of an accepted geometry (41_frame_codec.md R110 to R114). -/

namespace Sys2Proof.Machine

/-- Settles O19: every size is a multiple of `a * b` for a frame of `4a` by `2b` samples
(`accepted_sizes`). -/
theorem acceptedSizesAreExact : Obligations.AcceptedSizesAreExact := by
  intro p w h hp hc hf
  obtain ⟨a, b, hw, hh, hwh, -, -, hl, hch, ho, hlq, hcq, hfb, hob, h32, hu, hv, hframe⟩ :=
    accepted_sizes hp (geomCheck_ok.2 ⟨hc, hf⟩)
  have hgrid : h / 2 * (w / 2 / 2) = a * b := by
    rw [hw, hh, show 2 * b / 2 = b by omega, show 4 * a / 2 / 2 = a by omega, Nat.mul_comm]
  rw [hgrid, ho, hl, hch, hlq, hcq, hv, npix, hwh, hframe]
  omega

/-- An accepted CONVERT answers the state that starts the conversion, R114. -/
theorem exec_convert_accepted {s : State} (ha : s.Accepted) :
    exec .convert s = .next s.convertStart.writeSizes.startWalk := by
  rw [execConvert_eq, ha]
  rfl

/-- Settles O20: the verdict is OK, and the sizes written are exact (`writeSizes_toNat`). -/
theorem acceptedGeometryWritesTheSizes : Obligations.AcceptedGeometryWritesTheSizes := by
  intro s hp hc hf
  have ha : s.Accepted := geomCheck_ok.2 ⟨hc, hf⟩
  obtain ⟨hl, hch, ho⟩ := writeSizes_toNat hp ha
  obtain ⟨-, -, -, hfsize, -⟩ := exec_command_next s
  refine ⟨_, _, _, hl, hch, ho, ?_, exec_convert_accepted ha⟩
  rw [hfsize, ha]
  rfl

end Sys2Proof.Machine
end

section
/-! The closed form of the output (41_frame_codec.md R122 to R124): where each sample stands, what
the quads depend on, and that the quads passed stand in OB. -/

namespace Sys2Proof.Machine

/-! ### The samples in the quads -/

/-- Settles O45: a quad's four fields are its samples (`unpack40_pack40`). -/
theorem eachSampleStandsInItsOwnQuad : Obligations.EachSampleStandsInItsOwnQuad := by
  refine fun s => ⟨fun n i hd hi => ?luma, fun n j hd hj => ?chroma⟩
  case luma =>
    obtain ⟨q, k, hk, rfl⟩ : ∃ q k, k < 4 ∧ i = 4 * q + k := ⟨i / 4, i % 4, by omega, by omega⟩
    rw [show (4 * q + k) / 4 = q by omega, show (4 * q + k) % 4 = k by omega, hd q (by omega),
      State.lumaQuadOf]
    obtain ⟨h0, h1, h2, h3⟩ := Four.mk.inj (unpack40_pack40 (s.ySample (4 * q))
      (s.ySample (4 * q + 1)) (s.ySample (4 * q + 2)) (s.ySample (4 * q + 3)))
    interval_cases k
    exacts [h0, h1, h2, h3]
  case chroma =>
    obtain ⟨q, k, hk, rfl⟩ : ∃ q k, k < 2 ∧ j = 2 * q + k := ⟨j / 2, j % 2, by omega, by omega⟩
    rw [show (2 * q + k) / 2 = q by omega, show (2 * q + k) % 2 = k by omega, hd q (by omega),
      State.chromaQuadOf]
    obtain ⟨h0, h1, h2, h3⟩ := Four.mk.inj (unpack40_pack40 (s.uSample (2 * q))
      (s.vSample (2 * q)) (s.uSample (2 * q + 1)) (s.vSample (2 * q + 1)))
    interval_cases k
    exacts [⟨h0, h1⟩, ⟨h2, h3⟩]

/-- A stored sample depends on its two bytes alone, R41. -/
theorem storedSample_congr {s t : State} {n a : Nat} (h : ∀ x, x < n → s.fbByte x = t.fbByte x)
    (ha : a + 2 ≤ n) : s.storedSample a = t.storedSample a :=
  memRead_congr fun x _ hx => h x (by omega)

/-- Settles O46: every sample of a quad of the frame lies in FB below `3 * npix`, R44. -/
theorem outputDependsOnTheFrameAlone : Obligations.OutputDependsOnTheFrameAlone := by
  intro s t hw hh _ hfb
  have ew : t.w = s.w := congrArg BitVec.toNat hw.symm
  have eh : t.h = s.h := congrArg BitVec.toNat hh.symm
  have hy : ∀ i, i < npix s.w s.h → s.ySample i = t.ySample i := fun i hi =>
    congrArg sampleValue (storedSample_congr hfb (by simp only [addrY, yOff]; omega))
  have hu : ∀ j, j < 2 * chromaQuads s.w s.h → s.uSample j = t.uSample j := fun j hj => by
    rw [State.uSample, State.uSample, ew, eh, storedSample_congr hfb]
    simp only [addrU, uOff, chromaQuads] at hj ⊢
    omega
  have hv : ∀ j, j < 2 * chromaQuads s.w s.h → s.vSample j = t.vSample j := fun j hj => by
    rw [State.vSample, State.vSample, ew, eh, storedSample_congr hfb]
    simp only [addrV, vOff, chromaQuads] at hj ⊢
    omega
  refine ⟨fun i hi => ?_, fun j hj => ?_⟩
  · rw [lumaQuads] at hi
    simp only [State.lumaQuadOf]
    rw [hy _ (by omega), hy _ (by omega), hy _ (by omega), hy _ (by omega)]
  · simp only [State.chromaQuadOf]
    rw [hu _ (by omega), hu _ (by omega), hv _ (by omega), hv _ (by omega)]

/-! ### The quads passed -/

/-- The output so far is the quads passed, whatever the phase. -/
theorem outputSoFar_iff {s : State} :
    s.OutputSoFar ↔ s.LumaDone s.lumaPassed ∧ s.ChromaDone s.chromaPassed := by
  have hnone : s.LumaDone 0 ∧ s.ChromaDone 0 := ⟨nofun, nofun⟩
  unfold State.OutputSoFar State.lumaPassed State.chromaPassed
  cases s.pc.phase with
  | idle | clear => exact iff_of_true trivial hnone
  | luma => exact (and_iff_left hnone.2).symm
  | chroma | fin => exact Iff.rfl

/-- Quads below the one just stored still stand. -/
theorem afterQuad_keeps_quads {s : State} {k : Kind} {g : GatherBlock} {p : Position} {n : Nat} :
    (s.LumaDone n → 5 * n ≤ s.storeAddr → (s.afterQuad k g p).LumaDone n) ∧
      (s.ChromaDone n → lumaSize s.w s.h + 5 * n ≤ s.storeAddr →
        (s.afterQuad k g p).ChromaDone n) := by
  obtain ⟨hl, hc⟩ := quadOf_congr (s := s.afterQuad k g p) (t := s) rfl rfl rfl
  refine ⟨fun hd hn i hi => ?_, fun hd hn j hj => ?_⟩
  · rw [State.afterQuad_obQuad_below s k g p (by omega), hl, hd i hi]
  · rw [State.afterQuad_w, State.afterQuad_h, State.afterQuad_obQuad_below s k g p (by omega), hc,
      hd j hj]

section
variable {s : State} (hs : s.Inv)
include hs

/-- WLQ adds the quad it passes to those that stand. -/
theorem wlq_outputSoFar (hp : s.pc.phase = .luma) (ho : s.OutputSoFar) :
    (s.afterQuad .luma (memRead s.fbByte s.lumaAddr 8) s.afterLuma).OutputSoFar := by
  obtain ⟨hidx, -, hc, haddr⟩ := hs.luma_quad hp
  obtain ⟨-, hl', hc'⟩ := wlq_advances hs hp (memRead s.fbByte s.lumaAddr 8)
  rw [outputSoFar_iff, hl', hc', hc]
  refine ⟨fun i hi => ?_, nofun⟩
  rcases Nat.lt_succ_iff_lt_or_eq.1 hi with hi | rfl
  · exact afterQuad_keeps_quads.1 (outputSoFar_iff.1 ho).1 haddr.ge i hi
  · rw [← haddr, State.afterQuad_obQuad_self, lumaValue_eq s (by omega), hidx,
      Nat.mul_div_cancel_left _ (by omega)]
    exact ((quadOf_congr rfl rfl rfl).1 _).symm

/-- WCQ adds the quad it passes to those that stand. -/
theorem wcq_outputSoFar (hp : s.pc.phase = .chroma) (ho : s.OutputSoFar) :
    (s.afterQuad .chroma (memRead s.fbByte s.vAddr 4 ++ memRead s.fbByte s.uAddr 4 : GatherBlock)
      s.afterChroma).OutputSoFar := by
  obtain ⟨hidx, -, hl, haddr⟩ := hs.chroma_quad hp
  obtain ⟨ha, -⟩ := hs.accepted_of_phase_ne_idle (by simp [hp])
  obtain ⟨hsize, -⟩ := sizes_eq_quads hs.params ha
  obtain ⟨hld, hcd⟩ := outputSoFar_iff.1 ho
  obtain ⟨-, hl', hc'⟩ := wcq_advances hs hp
    (memRead s.fbByte s.vAddr 4 ++ memRead s.fbByte s.uAddr 4 : GatherBlock)
  rw [outputSoFar_iff, hl', hc']
  refine ⟨afterQuad_keeps_quads.1 hld (by omega), fun j hj => ?_⟩
  rcases Nat.lt_succ_iff_lt_or_eq.1 hj with hj | rfl
  · exact afterQuad_keeps_quads.2 hcd haddr.ge j hj
  · rw [State.afterQuad_w, State.afterQuad_h, ← haddr, State.afterQuad_obQuad_self,
      chromaValue_eq s (by omega), hidx, Nat.mul_div_cancel_left _ (by omega)]
    exact ((quadOf_congr rfl rfl rfl).2 _).symm

/-- A walker step adds the quad it passes, if any. -/
theorem WalkerEffect.outputSoFar {i : Instr} {t : State} (ho : s.OutputSoFar)
    (hw : WalkerEffect s i t) : t.OutputSoFar := by
  cases hw with
  | wclr hp =>
    obtain ⟨-, hl, hc⟩ := wclr_advances hs hp (s.ob.fill (fun _ => 0#8) s.outBytes.toNat)
    rw [outputSoFar_iff, hl, hc]
    exact ⟨nofun, nofun⟩
  | wlq hp => exact wlq_outputSoFar hs hp ho
  | wcq hp => exact wcq_outputSoFar hs hp ho
  | wfin => exact trivial

end

theorem outputSoFar_of_idle {s : State} (hp : s.pc.phase = .idle) : s.OutputSoFar := by
  rw [State.OutputSoFar, hp]
  trivial

/-- Settles O43: by the effect of the step on the conversion (`step_conversion`); WFIN leaves OB and
FB as they are, so the quads of FIN stand after it. -/
theorem stepKeepsTheOutputSoFar : Obligations.StepKeepsTheOutputSoFar := by
  intro s t hs ho h
  refine ⟨?_, fun hr => ?_⟩
  · cases step_conversion hs.busy h with
    | quiet => exact ho
    | staysIdle hi hpc => exact outputSoFar_of_idle (hpc ▸ hi)
    | reset => exact outputSoFar_of_idle rfl
    | accepted => exact trivial
    | walks _ hw => exact hw.outputSoFar hs.afterTurn ho
  · have hx := step_of_runs (.inr hr) ▸ h
    cases walkerEffect_of_exec hr hx with
    | wfin hp =>
      obtain ⟨hl, hc⟩ := passed_of_fin hp
      exact hl ▸ hc ▸ outputSoFar_iff.1 ho

end Sys2Proof.Machine
end

section
/-! A whole conversion: an accepted CONVERT and then the walker alone (41_frame_codec.md R114 to
R122). -/

namespace Sys2Proof.Machine

/-! ### The samples that set TRUNC -/

/-- A sample of luma quads 0 to `n - 1` has an ignored bit set. -/
def State.LumaTruncates (s : State) (n : Nat) : Prop :=
  ∃ i, i < 4 * n ∧ hasIgnoredBits (s.storedSample (addrY i)) = true

/-- A sample of chroma quads 0 to `n - 1` has an ignored bit set. -/
def State.ChromaTruncates (s : State) (n : Nat) : Prop :=
  ∃ j, j < 2 * n ∧ (hasIgnoredBits (s.storedSample (addrU s.w s.h j)) = true ∨
    hasIgnoredBits (s.storedSample (addrV s.w s.h j)) = true)

/-- A sample the walker has passed has an ignored bit set. -/
def State.PassedTruncates (s : State) : Prop :=
  s.LumaTruncates s.lumaPassed ∨ s.ChromaTruncates s.chromaPassed

theorem lumaTruncates_succ (s : State) (n : Nat) :
    s.LumaTruncates (n + 1) ↔
      s.LumaTruncates n ∨ quadpackTruncates (memRead s.fbByte (addrY (4 * n)) 8) = true := by
  simp only [State.LumaTruncates, show 4 * (n + 1) = 4 * n + 1 + 1 + 1 + 1 by omega,
    Nat.exists_lt_succ_right, (lumaGather s (4 * n)).2, Bool.or_eq_true, or_assoc]

theorem chromaTruncates_succ (s : State) (n : Nat) :
    s.ChromaTruncates (n + 1) ↔
      s.ChromaTruncates n ∨
        quadpackTruncates (memRead s.fbByte (addrV s.w s.h (2 * n)) 4 ++
          memRead s.fbByte (addrU s.w s.h (2 * n)) 4 : GatherBlock) = true := by
  simp only [State.ChromaTruncates, show 2 * (n + 1) = 2 * n + 1 + 1 by omega,
    Nat.exists_lt_succ_right, (chromaGather s (2 * n)).2, Bool.or_eq_true, or_assoc]
  exact or_congr_right (or_congr_right or_left_comm)

theorem not_lumaTruncates_zero (s : State) : ¬s.LumaTruncates 0 := nofun

theorem not_chromaTruncates_zero (s : State) : ¬s.ChromaTruncates 0 := nofun

/-- At FIN the samples passed are those of the frame. -/
theorem passedTruncates_of_fin {s : State} (hs : s.Inv) (hp : s.pc.phase = .fin) :
    s.PassedTruncates ↔ s.FrameTruncates := by
  obtain ⟨hl, hc⟩ := passed_of_fin hp
  obtain ⟨ha, -⟩ := hs.accepted_of_phase_ne_idle (by simp [hp])
  obtain ⟨hg, hf⟩ := geomCheck_ok.1 ha
  obtain ⟨-, -, -, -, hlq, hcq, -⟩ := acceptedSizesAreExact _ _ _ hs.params hg hf
  rw [State.PassedTruncates, State.LumaTruncates, State.ChromaTruncates, hl, hc, hlq,
    show 2 * chromaQuads s.w s.h = npix s.w s.h / 4 by omega, State.FrameTruncates]

theorem frameTruncates_congr {s t : State} (hf : s.fb = t.fb) (hw : s.width = t.width)
    (hh : s.height = t.height) : s.FrameTruncates ↔ t.FrameTruncates := by
  simp only [State.FrameTruncates, State.storedSample, State.fbByte_congr hf, State.w, State.h, hw,
    hh]

/-- A walker step that does not end the conversion accumulates in TRUNC what it passes: TRUNC stays
an old flag `b` or whether a sample passed has an ignored bit set. -/
theorem WalkerEffect.trunc {s t : State} {i : Instr} {b : Prop} (hs : s.Inv)
    (hw : WalkerEffect s i t) (hp : s.pc.phase ≠ .fin)
    (hb : s.status.trunc = true ↔ b ∨ s.PassedTruncates) :
    t.status.trunc = true ↔ b ∨ t.PassedTruncates := by
  cases hw with
  | wclr hp =>
    obtain ⟨hl, hc⟩ := passed_of_clear hp
    obtain ⟨-, hl', hc'⟩ := wclr_advances hs hp (s.ob.fill (fun _ => 0#8) s.outBytes.toNat)
    rw [State.PassedTruncates, hl', hc']
    rw [State.PassedTruncates, hl, hc] at hb
    exact hb
  | wlq hp =>
    obtain ⟨hidx, -⟩ := hs.luma_quad hp
    obtain ⟨-, hl, hc⟩ := wlq_advances hs hp (memRead s.fbByte s.lumaAddr 8)
    have hsucc := lumaTruncates_succ s s.lumaPassed
    rw [← hidx] at hsucc
    rw [State.PassedTruncates] at hb ⊢
    rw [hl, hc]
    change (s.status.trunc || _) = true ↔
      b ∨ s.LumaTruncates (s.lumaPassed + 1) ∨ s.ChromaTruncates s.chromaPassed
    rw [hsucc, Bool.or_eq_true, hb, or_assoc]
    exact or_congr_right or_right_comm
  | wcq hp =>
    obtain ⟨hidx, -⟩ := hs.chroma_quad hp
    obtain ⟨-, hl, hc⟩ := wcq_advances hs hp
      (memRead s.fbByte s.vAddr 4 ++ memRead s.fbByte s.uAddr 4 : GatherBlock)
    have hsucc := chromaTruncates_succ s s.chromaPassed
    rw [← hidx] at hsucc
    rw [State.PassedTruncates] at hb ⊢
    rw [hl, hc]
    change (s.status.trunc || _) = true ↔
      b ∨ s.LumaTruncates s.lumaPassed ∨ s.ChromaTruncates (s.chromaPassed + 1)
    rw [hsucc, Bool.or_eq_true, hb, or_assoc, or_assoc]
    rfl
  | wfin h => exact absurd h hp

/-! ### One step of the walker alone -/

/-- Under the invariant the micro-operation of the phase answers a next state, because its
addresses lie in the frame (R52, O41). -/
theorem microOp_goes_on {s : State} {i : Instr} (hs : s.Inv) (hr : s.microOpRuns i) :
    ∃ t, step s = .next t := by
  rw [step_of_runs (.inr hr)]
  obtain ⟨hluma, hchroma, hspaces⟩ := walkerStaysInsideTheFrame _ hs.afterTurn
  obtain ⟨hfb, hob⟩ := hspaces hr.phase_ne_idle
  rcases hr.phase_cases with ⟨hp, rfl⟩ | ⟨hp, rfl⟩ | ⟨hp, rfl⟩ | ⟨hp, rfl⟩
  · exact ⟨_, (execWclr_eq _).trans (if_pos hob)⟩
  · obtain ⟨hl, hst⟩ := hluma hp
    exact ⟨_, (execWlq_eq _).trans
      ((if_pos (hl.trans hfb)).trans (if_pos (hst.trans hob)))⟩
  · obtain ⟨hu, hv, hst⟩ := hchroma hp
    exact ⟨_, (execWcq_eq _).trans
      ((if_pos ⟨hu.trans hfb, hv.trans hfb⟩).trans (if_pos (hst.trans hob)))⟩
  · exact ⟨_, rfl⟩

/-- A micro-operation reads FB and the geometry, and writes neither. -/
theorem WalkerEffect.keeps_frame {s t : State} {i : Instr} (hw : WalkerEffect s i t) :
    t.turns = s.turns ∧ t.fb = s.fb ∧ t.width = s.width ∧ t.height = s.height := by
  cases hw <;> exact ⟨rfl, rfl, rfl, rfl⟩

/-- Only WFIN idles the walker. -/
theorem WalkerEffect.phase_ne_idle {s t : State} {i : Instr} (hw : WalkerEffect s i t)
    (hp : s.pc.phase ≠ .fin) : t.pc.phase ≠ .idle := by
  cases hw with
  | wclr => simp
  | wlq => exact afterLuma_phase_ne_idle s
  | wcq => exact afterChroma_phase_ne_idle s
  | wfin h => exact absurd h hp

/-- `u` is a state of the conversion CONVERT started in `s`, with the walker alone. -/
structure State.Converting (s u : State) : Prop where
  inv : u.Inv
  running : u.pc.phase ≠ .idle
  alone : u.turns = []
  fb : u.fb = s.fb
  width : u.width = s.width
  height : u.height = s.height
  output : u.OutputSoFar
  above : ∀ a, outSize s.w s.h ≤ a → u.obByte a = s.obByte a
  trunc : u.status.trunc = true ↔ s.status.trunc = true ∨ u.PassedTruncates

section
variable {s u v : State}

/-- While BUSY no step changes a byte of OB at or above the size of the output. -/
theorem obByte_above (hu : u.Inv) (hp : u.pc.phase ≠ .idle) (h : step u = .next v)
    {a : Nat} (ha : outSize u.w u.h ≤ a) :
    v.obByte a = u.obByte a := by
  by_contra hne
  obtain ⟨-, -, -, ho⟩ := hu.accepted_of_phase_ne_idle hp
  rcases obChangesOnlyByIdleHostOrBelowOutBytes u v a hu h hne with ⟨hb, -⟩ | ⟨-, hlt, -⟩
  · exact hp (phase_idle_of_not_busy hu.busy hb)
  · omega

/-- A conversion starts with the acceptance of CONVERT. -/
theorem converting_start (hs : s.Inv) (ht : s.turns = []) (ha : s.Accepted) :
    s.Converting s.convertStart.writeSizes.startWalk where
  inv := ⟨hs.params, hs.memories, iff_of_true rfl (by simp), nofun, ha,
    writeSizes_toNat hs.params ha, rfl, rfl, rfl⟩
  running := by simp
  alone := ht
  fb := rfl
  width := rfl
  height := rfl
  output := trivial
  above := fun _ _ => rfl
  trunc := (or_iff_left (not_or.2 ⟨not_lumaTruncates_zero _, not_chromaTruncates_zero _⟩)).symm

theorem State.Converting.sizes (hc : s.Converting u) : u.w = s.w ∧ u.h = s.h :=
  ⟨congrArg BitVec.toNat hc.width, congrArg BitVec.toNat hc.height⟩

/-- A step of the conversion leaves OB as it was above the output. -/
theorem State.Converting.keeps_above (hc : s.Converting u) (h : step u = .next v) {a : Nat}
    (ha : outSize s.w s.h ≤ a) : v.obByte a = s.obByte a := by
  obtain ⟨hw, hh⟩ := hc.sizes
  rw [obByte_above hc.inv hc.running h (by rwa [hw, hh]), hc.above a ha]

/-- The walker's next micro-operation goes on, with its effect. -/
theorem State.Converting.walks {i : Instr} (hc : s.Converting u) (hr : u.microOpRuns i) :
    ∃ v, step u = .next v ∧ WalkerEffect u i v := by
  obtain ⟨v, h⟩ := microOp_goes_on hc.inv hr
  have hw := walkerEffect_of_exec hr (step_of_runs (.inr hr) ▸ h)
  rw [State.afterTurn_of_nil hc.alone] at hw
  exact ⟨v, h, hw⟩

/-- Before FIN a walker step goes on with the conversion. -/
theorem State.Converting.goes_on (hc : s.Converting u) (hp : u.pc.phase ≠ .fin) :
    ∃ v, step u = .next v ∧ s.Converting v ∧ v.stepsLeft + 1 = u.stepsLeft := by
  obtain ⟨i, hr⟩ := exists_microOpRuns hc.running (State.walkerMoves_of_nil hc.alone)
  obtain ⟨v, h, hw⟩ := hc.walks hr
  obtain ⟨hturns, hfb, hwd, hht⟩ := hw.keeps_frame
  refine ⟨v, h, ?_, hw.stepsLeft hc.inv⟩
  exact {
    inv := stepKeepsTheInvariant u v hc.inv h
    running := hw.phase_ne_idle hp
    alone := hturns.trans hc.alone
    fb := hfb.trans hc.fb
    width := hwd.trans hc.width
    height := hht.trans hc.height
    output := (stepKeepsTheOutputSoFar u v hc.inv hc.output h).1
    above := fun _ ha => hc.keeps_above h ha
    trunc := hw.trunc hc.inv hp hc.trunc }

/-- The conversion is running before each of its steps (R121). -/
theorem converting_run (hc : s.Converting u) (k : Nat) (hk : k < u.stepsLeft) :
    ∃ v : State, Sys2Proof.core.run k u = .next v ∧ s.Converting v ∧
      v.stepsLeft + k = u.stepsLeft := by
  induction k with
  | zero => exact ⟨u, rfl, hc, rfl⟩
  | succ k ih =>
    obtain ⟨v, hrun, hv, hleft⟩ := ih (by omega)
    have hp : v.pc.phase ≠ .fin := fun hp => by
      have := stepsLeft_of_fin hp
      omega
    obtain ⟨w, h, hw, hstep⟩ := hv.goes_on hp
    exact ⟨w, run_snoc hrun h, hw, by omega⟩

/-- WFIN is the last step (R121). -/
theorem State.Converting.fin_of_stepsLeft (hc : s.Converting u) (h : u.stepsLeft = 1) :
    u.pc.phase = .fin := by
  have hrun := hc.running
  cases hp : u.pc.phase with
  | idle => exact absurd hp hrun
  | clear =>
    rw [stepsLeft_of_clear hp] at h
    omega
  | luma =>
    obtain ⟨-, hlt, -⟩ := hc.inv.luma_quad hp
    rw [stepsLeft_eq (by simp [hp]) (by simp [hp])] at h
    omega
  | chroma =>
    obtain ⟨-, hlt, -⟩ := hc.inv.chroma_quad hp
    rw [stepsLeft_eq (by simp [hp]) (by simp [hp])] at h
    omega
  | fin => rfl

/-- A conversion of an accepted frame takes `3 * npix / 8 + 2` walker steps (R121). -/
theorem stepsLeft_start (hs : s.Inv) (ha : s.Accepted) :
    s.convertStart.writeSizes.startWalk.stepsLeft = 3 * npix s.w s.h / 8 + 2 := by
  obtain ⟨hg, hf⟩ := geomCheck_ok.1 ha
  obtain ⟨-, -, -, -, hlq, hcq, -⟩ := acceptedSizesAreExact _ _ _ hs.params hg hf
  rw [stepsLeft_of_clear rfl]
  change 1 + lumaQuads s.w s.h + chromaQuads s.w s.h + 1 = _
  omega

/-- WFIN ends the conversion with every quad of the frame in OB and TRUNC accumulated over the
frame (R118, R122). -/
theorem State.Converting.finish (hc : s.Converting u) (hp : u.pc.phase = .fin) :
    ∃ t, step u = .next t ∧
      t.LumaDone (lumaQuads t.w t.h) ∧ t.ChromaDone (chromaQuads t.w t.h) ∧
      (t.fb = s.fb ∧ t.width = s.width ∧ t.height = s.height) ∧
      (∀ a, outSize s.w s.h ≤ a → t.obByte a = s.obByte a) ∧
      (t.status.done = true ∧ t.status.busy = false ∧ t.pc.phase = .idle) ∧
      (t.status.trunc = true ↔ s.status.trunc = true ∨ s.FrameTruncates) ∧ t.SizesMatch := by
  have hr : u.microOpRuns .wfin :=
    ⟨State.walkerMoves_of_nil hc.alone, by rw [decode_phase_code, hp]⟩
  obtain ⟨t, h, hw⟩ := hc.walks hr
  obtain ⟨hld, hcd⟩ := (stepKeepsTheOutputSoFar u t hc.inv hc.output h).2 hr
  have hframe : u.PassedTruncates ↔ s.FrameTruncates :=
    (passedTruncates_of_fin hc.inv hp).trans (frameTruncates_congr hc.fb hc.width hc.height)
  obtain ⟨-, hsizes⟩ := hc.inv.accepted_of_phase_ne_idle hc.running
  cases hw with
  | wfin =>
    exact ⟨_, h, hld, hcd, ⟨hc.fb, hc.width, hc.height⟩, fun a ha => hc.keeps_above h ha,
      ⟨rfl, rfl, rfl⟩, hc.trunc.trans (or_congr_right hframe), hsizes⟩

/-- Settles O44: by induction on the steps the conversion keeps what R122 says of the quads passed
(`converting_run`), and its last step is WFIN (`State.Converting.finish`). -/
theorem conversionGivesTheClosedForm : Obligations.ConversionGivesTheClosedForm := by
  intro s hs ht _ hg hf
  have ha : s.Accepted := geomCheck_ok.2 ⟨hg, hf⟩
  have hstart := converting_start hs ht ha
  have hsteps := stepsLeft_start hs ha
  refine ⟨_, exec_convert_accepted ha, fun k hk => ?_, ?_⟩
  · obtain ⟨u, hrun, hu, -⟩ := converting_run hstart k (by omega)
    exact ⟨u, hrun, hu.inv.busy.2 hu.running⟩
  · obtain ⟨u, hrun, hu, hleft⟩ := converting_run hstart (3 * npix s.w s.h / 8 + 1) (by omega)
    obtain ⟨t, h, hld, hcd, ⟨hfb, hw, hh⟩, habove, ⟨hdone, hbusy, hidle⟩, htrunc, hsizes⟩ :=
      hu.finish (hu.fin_of_stepsLeft (by omega))
    have ew : t.w = s.w := congrArg BitVec.toNat hw
    have eh : t.h = s.h := congrArg BitVec.toNat hh
    obtain ⟨hlq, hcq⟩ := quadOf_congr hfb hw hh
    rw [State.SizesMatch, ew, eh] at hsizes
    obtain ⟨hsl, hsc, hso⟩ := hsizes
    rw [ew, eh] at hld hcd
    refine ⟨t, run_snoc hrun h, fun i hi => (hld i hi).trans (hlq i), fun j hj => ?_, habove, hfb,
      hdone, hbusy, hidle, htrunc, hsl, hsc, hso⟩
    have hquad := hcd j hj
    rw [ew, eh] at hquad
    exact hquad.trans (hcq j)

end

end Sys2Proof.Machine
end

section
/-! Sample content never steers the machine (41_frame_codec.md R119, R124): each operation keeps
two states in agreement on everything but it (`State.SameControl`). -/

namespace Sys2Proof.Machine

namespace State.SameControl

variable {s s' : State}

theorem afterTurn (h : s.SameControl s') : s.afterTurn.SameControl s'.afterTurn :=
  { h with turns := congrArg List.tail h.turns }

theorem w_eq (h : s.SameControl s') : s.w = s'.w := congrArg BitVec.toNat h.width

theorem h_eq (h : s.SameControl s') : s.h = s'.h := congrArg BitVec.toNat h.height

theorem raise (h : s.SameControl s') (f : CommandFault) :
    (s.raise f).SameControl (s'.raise f) :=
  { h with
    busy := by simp [h.busy]
    done := by simp [h.done]
    eGeom := by simp [h.eGeom]
    eCap := by simp [h.eCap]
    eCmd := by simp [h.eCmd] }

theorem writeSizes (h : s.SameControl s') : s.writeSizes.SameControl s'.writeSizes :=
  { h with
    lumaBytes := by simp [h.w_eq, h.h_eq]
    chromaBytes := by simp [h.w_eq, h.h_eq]
    outBytes := by simp [h.w_eq, h.h_eq] }

theorem convertStart (h : s.SameControl s') : s.convertStart.SameControl s'.convertStart :=
  { h with done := rfl }

theorem startWalk (h : s.SameControl s') : s.startWalk.SameControl s'.startWalk :=
  { h with busy := rfl, pc := rfl, optr := rfl }

theorem onVerdict {t t' : State} (h : s.SameControl s') (ht : t.SameControl t') (v : Verdict) :
    (s.onVerdict t v).SameControl (s'.onVerdict t' v) := by
  cases v with
  | ok => exact ht
  | invalidGeometry => exact h.raise .invalidGeometry
  | capacity => exact h.raise .capacity

theorem packPort (h : s.SameControl s') (k : Kind) :
    (Machine.packPort k s).SameControl (Machine.packPort k s') := { h with }

theorem afterQuad (h : s.SameControl s') (k : Kind) (g g' : GatherBlock) {p p' : Position}
    (hp : p = p') : (s.afterQuad k g p).SameControl (s'.afterQuad k g' p') :=
  { h with pc := hp, optr := congrArg (· + 5#32) h.optr }

theorem writeSlot (h : s.SameControl s') (v : Word) (r : RegSlot) :
    (s.writeSlot v r).SameControl (s'.writeSlot v r) := by
  cases r with
  | width => exact { h with width := rfl }
  | height => exact { h with height := rfl }
  | _ => exact { h with }

theorem reply (h : s.SameControl s') (r r' : Reply) : (s.reply r).SameControl (s'.reply r') :=
  { h with }

/-- A byte access is dropped or draws a free byte by BUSY alone (R145). -/
theorem hostByteAccess (h : s.SameControl s') (a : Nat) (b : Byte) :
    (s.hostReadFb a).SameControl (s'.hostReadFb a) ∧
      (s.hostReadOb a).SameControl (s'.hostReadOb a) ∧
      (s.hostWriteFb a b).SameControl (s'.hostWriteFb a b) ∧
      (s.hostWriteOb a b).SameControl (s'.hostWriteOb a b) := by
  have hdraws : s.draws + 1 = s'.draws + 1 := congrArg (· + 1) h.draws
  unfold State.hostReadFb State.hostReadOb State.hostWriteFb State.hostWriteOb
  rw [← h.busy]
  split
  · exact ⟨{ h with draws := hdraws }, { h with draws := hdraws }, h, h⟩
  · exact ⟨{ h with }, { h with }, { h with }, { h with }⟩

theorem assertReset (h : s.SameControl s') : s.assertReset.SameControl s'.assertReset := by
  have hdraws : s.draws + 1 = s'.draws + 1 := congrArg (· + 1) h.draws
  exact ⟨h.params, rfl, rfl, rfl, rfl, rfl, rfl, rfl, rfl, rfl, rfl, rfl, rfl, h.turns, hdraws⟩

theorem hostMoves (h : s.SameControl s') {a : HostAccess} (hm : s.hostMoves a) :
    s'.hostMoves a := by
  obtain ⟨ts, ht⟩ := hm
  exact ⟨ts, h.turns ▸ ht⟩

theorem walkerMoves (h : s.SameControl s') (hm : s.walkerMoves = true) :
    s'.walkerMoves = true := by
  rw [State.walkerMoves, ← h.turns]
  exact hm

theorem runs (h : s.SameControl s') {i : Instr} (hr : s.runs i) : s'.runs i := by
  rcases hr with ⟨hb, c, hm, hd⟩ | ⟨hm, hd⟩
  · exact .inl ⟨h.busy ▸ hb, c, h.hostMoves hm, hd⟩
  · exact .inr ⟨h.walkerMoves hm, h.pc ▸ hd⟩

/-- What the walker addresses, and where it goes next, is control. -/
theorem addresses (h : s.SameControl s') :
    s.lumaAddr = s'.lumaAddr ∧ s.uAddr = s'.uAddr ∧ s.vAddr = s'.vAddr ∧
      s.storeAddr = s'.storeAddr ∧ s.afterLuma = s'.afterLuma ∧
      s.afterChroma = s'.afterChroma := by
  simp only [State.lumaAddr, State.uAddr, State.vAddr, State.lumaIndex, State.chromaIndex,
    State.storeAddr, State.afterLuma, State.afterChroma, h.pc, h.w_eq, h.h_eq, h.optr, and_self]

/-- An instruction decides whether it answers, and what it leaves of control, from control alone. -/
theorem exec_next (h : s.SameControl s') {i : Instr} {t : State} (hx : exec i s = .next t) :
    ∃ t', exec i s' = .next t' ∧ t.SameControl t' := by
  obtain ⟨hla, hua, hva, hst, hal, hac⟩ := h.addresses
  cases i with
  | nop =>
    cases hx
    exact ⟨_, rfl, h⟩
  | packl =>
    cases hx
    exact ⟨_, rfl, h.packPort .luma⟩
  | packc =>
    cases hx
    exact ⟨_, rfl, h.packPort .chroma⟩
  | fsize =>
    cases hx
    refine ⟨_, rfl, ?_⟩
    rw [← h.params, ← h.w_eq, ← h.h_eq]
    exact h.onVerdict h.writeSizes _
  | convert =>
    cases hx
    refine ⟨_, execConvert_eq s', ?_⟩
    rw [← h.params, ← h.w_eq, ← h.h_eq]
    exact h.convertStart.onVerdict h.convertStart.writeSizes.startWalk _
  | clrst =>
    cases hx
    exact ⟨_, rfl, { h with done := rfl, eGeom := rfl, eCap := rfl, eCmd := rfl }⟩
  | wclr =>
    cases exec_cases hx with
    | wclr ho =>
      rw [h.outBytes, h.params] at ho
      exact ⟨_, (execWclr_eq s').trans (if_pos ho), { h with optr := rfl, pc := rfl }⟩
  | wlq =>
    cases exec_cases hx with
    | wlq hf ho =>
      rw [hla, h.params] at hf
      rw [hst, h.params] at ho
      exact ⟨_, (execWlq_eq s').trans ((if_pos hf).trans (if_pos ho)), h.afterQuad _ _ _ hal⟩
  | wcq =>
    cases exec_cases hx with
    | wcq hf ho =>
      rw [hua, hva, h.params] at hf
      rw [hst, h.params] at ho
      exact ⟨_, (execWcq_eq s').trans ((if_pos hf).trans (if_pos ho)), h.afterQuad _ _ _ hac⟩
  | wfin =>
    cases hx
    exact ⟨_, rfl, { h with busy := rfl, done := rfl, pc := rfl }⟩

end State.SameControl

/-- Settles O47: the two states take the same turn, and each turn's operation keeps them in
agreement; where it runs an instruction, by `State.SameControl.exec_next`. -/
theorem sampleContentNeverSteersTheMachine : Obligations.SampleContentNeverSteersTheMachine := by
  intro s s' t h hstep
  have hturn := h.afterTurn
  cases step_cases hstep with
  | ran hr hx =>
    obtain ⟨t', hx', ht⟩ := hturn.exec_next hx
    exact ⟨t', (step_of_runs (h.runs hr)).trans hx', ht⟩
  | walkerIdle hm hp => exact ⟨_, step_walker_idle (h.walkerMoves hm) (h.pc ▸ hp), hturn⟩
  | regRead n hm => exact ⟨_, step_of_fetchHost_done (h.hostMoves hm) rfl, hturn.reply _ _⟩
  | regWriteBusy n v hm hb => exact ⟨_, step_regWrite_busy (h.hostMoves hm) (h.busy ▸ hb), hturn⟩
  | regWrite n v hm hb hn =>
    exact ⟨_, step_regWrite_idle (h.hostMoves hm) (h.busy ▸ hb) hn, hturn.writeSlot v _⟩
  | illegal n c e hm hb hn hd =>
    obtain rfl := regSlot_eq_cmd.1 hn
    exact ⟨_, step_illegal (h.hostMoves hm) (h.busy ▸ hb) hd, hturn.raise _⟩
  | fbRead a hm ha =>
    obtain ⟨hread, -⟩ := hturn.hostByteAccess a 0#8
    rw [h.params] at ha
    exact ⟨_, step_of_fetchHost_done (h.hostMoves hm) (congrArg _ (if_pos ha)),
      hread⟩
  | fbWrite a b hm ha =>
    obtain ⟨-, -, hwrite, -⟩ := hturn.hostByteAccess a b
    rw [h.params] at ha
    exact ⟨_, step_of_fetchHost_done (h.hostMoves hm) (congrArg _ (if_pos ha)),
      hwrite⟩
  | obRead a hm ha =>
    obtain ⟨-, hread, -⟩ := hturn.hostByteAccess a 0#8
    rw [h.params] at ha
    exact ⟨_, step_of_fetchHost_done (h.hostMoves hm) (congrArg _ (if_pos ha)),
      hread⟩
  | obWrite a b hm ha =>
    obtain ⟨-, -, -, hwrite⟩ := hturn.hostByteAccess a b
    rw [h.params] at ha
    exact ⟨_, step_of_fetchHost_done (h.hostMoves hm) (congrArg _ (if_pos ha)),
      hwrite⟩
  | reset hm => exact ⟨_, step_of_fetchHost_done (h.hostMoves hm) rfl, hturn.assertReset⟩

end Sys2Proof.Machine
end

section
/-! The register port (42_host_control.md R140 to R144): what a read returns, what a write does, and
the two commands that touch nothing but STATUS. -/

namespace Sys2Proof.Machine

/-! ### Commands -/

/-- A command word with a clear ZERO field is its OPCODE, extended with zeros (R76). -/
theorem eq_setWidth_of_opcode {c : Word} {op : Byte} (hz : c.extractLsb' 8 24 = 0#24)
    (hop : c.extractLsb' 0 8 = op) : c = op.setWidth 32 := by
  refine BitVec.eq_of_toNat_eq ?_
  rw [toNat_eq_opcode hz, hop, BitVec.toNat_setWidth_of_le (by omega)]

/-- A write to CMD while idle runs the command whose row of R77 has the word's OPCODE. -/
theorem step_opcode {s : State} {c : Word} {op : Byte} {i : Instr}
    (hm : s.hostMoves (.regWrite 0 c)) (hb : s.status.busy = false)
    (hz : c.extractLsb' 8 24 = 0#24) (hi : encode i = .cmdw (op.setWidth 32))
    (hop : c.extractLsb' 0 8 = op) : step s = exec i s.afterTurn := by
  refine step_command hm hb ?_
  rw [eq_setWidth_of_opcode hz hop, ← hi, decode_encode]

/-- Settles O3: the six OPCODEs by `step_opcode`; the decoder rejects a set ZERO field first, then a
reserved OPCODE, and both raise IllegalCommand (`step_illegal`). -/
theorem writeToCmdDecodesOneCommand : Obligations.WriteToCmdDecodesOneCommand := by
  intro s c hm
  refine ⟨step_regWrite_busy hm, fun hb => ⟨fun hz => ?zeroFieldSet, fun hz => ?zeroFieldClear⟩⟩
  case zeroFieldSet => exact step_illegal hm hb (decodeCommand_zeroFieldSet hz)
  case zeroFieldClear =>
    exact ⟨step_opcode hm hb hz rfl, step_opcode hm hb hz rfl, step_opcode hm hb hz rfl,
      step_opcode hm hb hz rfl, step_opcode hm hb hz rfl, step_opcode hm hb hz rfl,
      fun hop => step_illegal hm hb (decodeCommand_opcodeReserved hz hop)⟩

/-- Settles O22: NOP's arm leaves the state, so a write of its word does while idle what every write
does while BUSY. -/
theorem nopChangesNothing : Obligations.NopChangesNothing := by
  have hexec : ∀ s : State, exec .nop s = .next s := fun s => (exec_command_next s).1
  refine ⟨hexec, decode_encode .nop, fun s hm => ?_⟩
  cases hb : s.status.busy with
  | true => exact step_regWrite_busy hm hb
  | false => rw [step_command hm hb (decode_encode .nop), hexec]

/-- Of an idle block's STATUS, CLRST leaves no bit (R16, R144). -/
theorem Status.clearSticky_of_idle {f : Status} (hb : f.busy = false) :
    f.clearSticky = Status.cleared := by
  rw [Status.clearSticky, hb, Status.cleared]

/-- Settles O23: CLRST's arm, and `Status.clearSticky_of_idle` for what STATUS then reads. -/
theorem clrstClearsTheStickyBits : Obligations.ClrstClearsTheStickyBits := by
  refine ⟨fun s => rfl, decode_encode .clrst, fun s hb hm => ?_⟩
  refine ⟨_, step_command hm hb (decode_encode .clrst), ?_⟩
  change s.status.clearSticky.toWord = 0#32
  rw [Status.clearSticky_of_idle hb]
  decide

/-! ### Writes -/

/-- The indexes that name no register a write reaches, R11, R141. -/
theorem regSlot_ignoresWrites (n : Fin 16) (hn : n = 1 ∨ (4 ≤ n ∧ n ≤ 7) ∨ 10 ≤ n) :
    regSlot n ∉ [.cmd, .width, .height, .qin0, .qin1] := by
  revert n
  decide

/-- A write changes WIDTH, HEIGHT, QIN0 and QIN1 alone, R141. -/
theorem State.writeSlot_of_not_mem (s : State) (v : Word) {r : RegSlot}
    (hr : r ∉ [.width, .height, .qin0, .qin1]) : s.writeSlot v r = s := by
  cases r with
  | width | height | qin0 | qin1 => simp at hr
  | _ => rfl

/-- Settles O6: BUSY first, then the command port by what its word decodes to, then each index by
the register it names (`step_regWrite_idle`). -/
theorem registerWriteTakesEffectOnlyWhileIdle :
    Obligations.RegisterWriteTakesEffectOnlyWhileIdle := by
  intro s n v hm
  refine ⟨step_regWrite_busy hm, fun hb =>
    ⟨?command, ?width, ?height, ?qin0, ?qin1, fun hn => ?ignored⟩⟩
  case command =>
    rintro rfl
    exact ⟨fun i hd => step_command hm hb hd, fun e hd => step_illegal hm hb hd⟩
  case ignored =>
    have hr := regSlot_ignoresWrites n hn
    rw [List.mem_cons, not_or] at hr
    obtain ⟨hcmd, hr⟩ := hr
    rw [step_regWrite_idle hm hb hcmd, State.writeSlot_of_not_mem _ v hr]
  all_goals
    rintro rfl
    exact step_regWrite_idle hm hb (by decide)

/-! ### Reads -/

/-- A register read returns the register at its index and takes the turn, R140. -/
theorem step_regRead {s : State} {n : Fin 16} (hm : s.hostMoves (.regRead n)) :
    step s = .next { s.afterTurn with replies := .word (s.readReg n) :: s.replies } :=
  step_of_fetchHost_done hm rfl

/-- The indexes that name no register, R11. -/
theorem regSlot_reserved (n : Fin 16) (hn : n = 7 ∨ 12 ≤ n) : regSlot n = .reserved := by
  revert n
  decide

/-- A register narrower than the port is read with zeros above it (R12, R13, R22). -/
theorem extractLsb'_setWidth_zeros {m : Nat} (x : BitVec m) (n : Nat) :
    (x.setWidth (m + n)).extractLsb' 0 m = x ∧ (x.setWidth (m + n)).extractLsb' m n = 0#n := by
  constructor
  · rw [BitVec.extractLsb'_setWidth_of_le (by omega), BitVec.extractLsb'_eq_self]
  · refine BitVec.eq_of_getLsbD_eq fun i hi => ?_
    simp

/-- Settles O5: the register at each index; STATUS bit by bit (`Status.toWord_getLsbD`), and the
narrow registers by `extractLsb'_setWidth_zeros`. -/
theorem registerReadReturnsItsRegister : Obligations.RegisterReadReturnsItsRegister := by
  intro s n hm
  refine ⟨s.readReg n, step_regRead hm, ?cmd, ?status, ?width, ?height, ?lumaBytes, ?chromaBytes,
    ?outBytes, ?qin0, ?qin1, ?qout0, ?qout1, fun hn => ?reserved⟩
  case status =>
    rintro rfl k
    change s.status.toWord.getLsbD k = _
    rw [Status.toWord_getLsbD]
    split_ifs <;> simp [*]
  case width => rintro rfl; exact extractLsb'_setWidth_zeros s.width 16
  case height => rintro rfl; exact extractLsb'_setWidth_zeros s.height 16
  case qout1 => rintro rfl; exact extractLsb'_setWidth_zeros s.qout1 24
  case reserved => rw [State.readReg, regSlot_reserved n hn, State.readSlot]
  all_goals
    rintro rfl
    rfl

end Sys2Proof.Machine
end

section
/-! The byte ports of FB and OB (42_host_control.md R145), and what a busy block leaves of the
host's accesses (42_host_control.md R148, 70_reset_and_hazards.md R185). -/

namespace Sys2Proof.Machine

/-- The byte of a space at an address after a one-byte write. -/
theorem State.spaceByte_write (s : State) (ts : List Turn) (S : Space) (a : Nat) (b : Byte)
    (x : Nat) :
    (s.withSpace ts S ((s.space S).write a b)).spaceByte S x =
      if x = a then b else s.spaceByte S x := by
  cases S <;>
    simp only [State.spaceByte, State.fbByte, State.obByte, State.withSpace, State.space,
      Memory.lookup_write] <;>
    split <;> rfl

section
variable {s : State} {S : Space} {a : Nat} {b : Byte} {ts : List Turn}

/-- A byte write of a space below its capacity, R145. -/
theorem step_byteWrite (ht : s.turns = turnWrite S a b :: ts) (ha : a < s.capacity S) :
    (s.status.busy = true → step s = .next s.afterTurn) ∧
      (s.status.busy = false →
        step s = .next (s.withSpace s.turns.tail S ((s.space S).write a b))) := by
  rw [State.afterTurn_of_cons ht, ht]
  exact ⟨step_turnWrite_busy ht ha, step_turnWrite_idle ht ha⟩

/-- A byte read of a space below its capacity, R145. -/
theorem step_byteRead (ht : s.turns = turnRead S a :: ts) (ha : a < s.capacity S) :
    (s.status.busy = true → ∃ r d,
        step s = .next { s.afterTurn with replies := .byte r :: s.replies, draws := d }) ∧
      (s.status.busy = false →
        step s = .next { s.afterTurn with replies := .byte (s.spaceByte S a) :: s.replies }) := by
  obtain ⟨r, d, hs, hidle⟩ := step_turnRead ht ha
  rw [State.afterTurn_of_cons ht, hs]
  refine ⟨fun _ => ⟨r, d, rfl⟩, fun hb => ?_⟩
  obtain ⟨rfl, rfl⟩ := hidle hb
  rfl

end

/-- Settles O7: one rule for the byte writes and one for the byte reads of either space
(`step_byteWrite`, `step_byteRead`). -/
theorem hostByteAccessFollowsBusy : Obligations.HostByteAccessFollowsBusy := by
  intro s a b
  refine ⟨?fbWrite, ?obWrite, ?fbRead, ?obRead⟩ <;> rintro ha ⟨ts, ht⟩
  case fbWrite =>
    obtain ⟨hbusy, hidle⟩ := step_byteWrite (S := .fb) ht ha
    exact ⟨hbusy, fun hb => ⟨_, hidle hb, rfl, s.spaceByte_write _ .fb a b⟩⟩
  case obWrite =>
    obtain ⟨hbusy, hidle⟩ := step_byteWrite (S := .ob) ht ha
    exact ⟨hbusy, fun hb => ⟨_, hidle hb, rfl, s.spaceByte_write _ .ob a b⟩⟩
  case fbRead => exact step_byteRead (S := .fb) ht ha
  case obRead => exact step_byteRead (S := .ob) ht ha

/-- Settles O10: of what a step can do (`step_effect`), a host's turn while BUSY leaves only the
quiet case: commands and writes need an idle block, and micro-operations are the walker's. -/
theorem hostCannotDisturbARunningConversion :
    Obligations.HostCannotDisturbARunningConversion := by
  intro s t h hbusy hm hne hstep
  have hnot : s.status.busy ≠ false := by simp [hbusy]
  cases step_effect hstep with
  | quiet r d => rfl
  | ran hr hx =>
    rcases hr.cases with ⟨hidle, -⟩ | ⟨hw, -⟩
    · exact absurd hidle hnot
    · exact absurd (hw.symm.trans hm.not_walkerMoves) (by decide)
  | reset hr => exact absurd (hm.unique hr) hne
  | setWidth _ _ hidle | setHeight _ _ hidle | setQin0 _ _ hidle | setQin1 _ _ hidle
  | illegal _ _ _ hidle | fbWrite _ _ _ hidle | obWrite _ _ _ hidle =>
    exact absurd hidle hnot

end Sys2Proof.Machine
end

section
/-! The three faults of a command (60_exceptions.md R161 to R163, R167), and that under the
invariant no step stops the machine (R160). -/

namespace Sys2Proof.Machine

/-! ### Fault entry -/

/-- On a verdict that raises `f`, FSIZE raises it and CONVERT clears DONE and raises it (R113,
R114, R167). -/
theorem exec_geometry_fault {s : State} {f : CommandFault}
    (hf : ∀ u a : State, u.onVerdict a (geomCheck s.params s.w s.h) = u.raise f) :
    exec .fsize s = .next (s.raise f) ∧ exec .convert s = .next (s.convertStart.raise f) := by
  obtain ⟨-, -, -, hfsize, -⟩ := exec_command_next s
  rw [hfsize, execConvert_eq, hf, hf]
  exact ⟨rfl, rfl⟩

/-- A word with a set ZERO field or a reserved OPCODE is no command, R78. -/
theorem decode_illegalCommand {c : Word}
    (h : c.extractLsb' 8 24 ≠ 0#24 ∨ 0x06#8 ≤ c.extractLsb' 0 8) :
    ∃ e, decode (.cmdw c) = .error e := by
  by_cases hz : c.extractLsb' 8 24 = 0#24
  · have hop : 0x06#8 ≤ c.extractLsb' 0 8 := h.resolve_left (not_not.2 hz)
    exact ⟨_, decodeCommand_opcodeReserved hz (BitVec.le_def.1 hop)⟩
  · exact ⟨_, decodeCommand_zeroFieldSet hz⟩

/-- Settles O21: what the geometry check answers decides FSIZE and CONVERT
(`exec_geometry_fault`), and a word that is no command raises IllegalCommand (`step_illegal`). -/
theorem faultSetsOnlyItsBit : Obligations.FaultSetsOnlyItsBit := by
  refine ⟨fun s hc => ?geometry, fun s hc hf => ?capacity, fun s c hb hm hbad => ?command⟩
  case geometry =>
    refine exec_geometry_fault (f := .invalidGeometry) fun u a => ?_
    rw [geomCheck_invalidGeometry.2 hc, State.onVerdict]
  case capacity =>
    refine exec_geometry_fault (f := .capacity) fun u a => ?_
    rw [geomCheck_capacity.2 ⟨hc, hf⟩, State.onVerdict]
  case command =>
    obtain ⟨e, hd⟩ := decode_illegalCommand hbad
    exact step_illegal hm hb hd

/-! ### No step stops the machine -/

/-- The walker's turn goes on: an idle walker's leaves the block as it is (log entry 10), and a
micro-operation stays inside the frame (`microOp_goes_on`). -/
theorem walker_goes_on {s : State} (hs : s.Inv) (hm : s.walkerMoves = true) : StepGoesOn s := by
  by_cases hp : s.pc.phase = .idle
  · exact ⟨_, step_walker_idle hm hp⟩
  · obtain ⟨i, hr⟩ := exists_microOpRuns hp hm
    exact microOp_goes_on hs hr

/-- A host's write to CMD goes on: every command answers a next state, and a word that is no
command only raises its fault (R160). -/
theorem cmdWrite_goes_on {s : State} {c : Word} (hm : s.hostMoves (.regWrite 0 c))
    (hb : s.status.busy = false) : StepGoesOn s := by
  cases hd : decode (.cmdw c) with
  | error e => exact ⟨_, step_illegal hm hb hd⟩
  | ok i =>
    rw [StepGoesOn, step_command hm hb hd]
    rcases decodeCommand_ok hd with rfl | rfl | rfl | rfl | rfl | rfl <;> exact ⟨_, rfl⟩

/-- A host's register write goes on, busy or not (R141). -/
theorem regWrite_goes_on {s : State} {n : Fin 16} {v : Word} (hm : s.hostMoves (.regWrite n v)) :
    StepGoesOn s := by
  cases hb : s.status.busy with
  | true => exact ⟨_, step_regWrite_busy hm hb⟩
  | false =>
    by_cases hn : regSlot n = .cmd
    · exact cmdWrite_goes_on (regSlot_eq_cmd.1 hn ▸ hm) hb
    · exact ⟨_, step_regWrite_idle hm hb hn⟩

/-- A host's access that its port can express goes on, in every state. -/
theorem host_goes_on {s : State} {a : HostAccess} (hm : s.hostMoves a) (ha : a.wf s.params) :
    StepGoesOn s := by
  cases a with
  | regRead n => exact ⟨_, step_regRead hm⟩
  | regWrite n v => exact regWrite_goes_on hm
  | assertReset => exact ⟨_, step_of_fetchHost_done hm rfl⟩
  | fbRead x | fbWrite x b | obRead x | obWrite x b =>
    exact ⟨_, step_of_fetchHost_done hm (congrArg Fetched.done (if_pos ha))⟩

/-- Settles O40: by whose turn it is (`walker_goes_on`, `host_goes_on`). -/
theorem stepGoesOnUnderTheInvariant : Obligations.StepGoesOnUnderTheInvariant := by
  intro s hs hwf
  rcases moves_cases s with hm | ⟨a, hm⟩
  · exact walker_goes_on hs hm
  · exact host_goes_on hm (hwf a hm)

end Sys2Proof.Machine
end

section
/-! Reset: every register reads 0 after it, and which bytes it leaves (10_state.md R30,
70_reset_and_hazards.md R180, R181). -/

namespace Sys2Proof.Machine

/-- Reset leaves no register with a set bit. -/
theorem State.assertReset_readSlot (s : State) (r : RegSlot) :
    s.assertReset.readSlot r = 0#32 := by
  cases r
  case status =>
    rw [State.readSlot, State.assertReset_status]
    decide
  all_goals rfl

/-- A byte outside the area a reset can draw over is as before. -/
theorem State.assertReset_obByte {s : State} {a : Nat}
    (h : s.status.busy = true → s.outBytes.toNat ≤ a) :
    s.assertReset.obByte a = s.obByte a := by
  rw [State.obByte, State.assertReset_ob, lookup_obAfterReset h, State.obByte]

/-- Settles O37: the registers by `State.assertReset_readSlot`; the OB bytes, idle or at and above
OUT_BYTES, by `State.assertReset_obByte`. -/
theorem resetClearsRegistersNotMemories : Obligations.ResetClearsRegistersNotMemories := by
  intro s hm
  refine ⟨s.afterTurn.assertReset, step_of_fetchHost_done hm rfl, fun n => ?registers, rfl, rfl,
    rfl, fun a => ?fb, fun hidle a => ?idle, fun a ha => ?above⟩
  case registers => exact State.assertReset_readSlot _ (regSlot n)
  case fb => rw [State.fbByte_congr (State.assertReset_fb _), State.afterTurn_fbByte]
  case idle =>
    have hb : s.status.busy ≠ true := by simp [hidle]
    exact State.assertReset_obByte (s := s.afterTurn) fun h => absurd h hb
  case above => exact State.assertReset_obByte (s := s.afterTurn) fun _ => ha

end Sys2Proof.Machine
end
